-- ==== Sys2Proof/Word.lean ====
section
/-! DEFINITION. The word types of the AES/POLYVAL block and nothing else: bytes, 32-bit registers and
command words, 16-byte blocks, the 32-byte key.

A byte string is held as ONE bit vector whose most significant byte is byte 0 of the string (the value
`BE(b)` of 00_scope.md rule R8), so that a hexadecimal literal reads as the spec writes the string
(rule R6: "Strings are written in hex with byte 0 first"). The byte helpers are in Machine/Bytes.lean. -/

namespace Sys2Proof

/-- One byte (00_scope.md R7: bit 0 is the least significant). -/
abbrev Byte := BitVec 8

/-- A 32-bit register value, a command word, or a word `w[i]` of the key schedule. -/
abbrev Word := BitVec 32

/-- A block: a string of 16 bytes, held as `BE(b)` (00_scope.md R6, R8). -/
abbrev Block := BitVec 128

/-- The 32-byte string `KEY[0..31]`, held as `BE(KEY)` (10_state.md R14). -/
abbrev KeyStr := BitVec 256

end Sys2Proof
end

