-- ==== Sys2Proof/Config.lean ====
section
/-! DEFINITION. The parameters that the spec leaves to the platform (00_scope.md R5; 92_eei_decisions.md,
"Open parameters"; 93_implementation_defined.md I3, I4): `BASE` and `LIMIT_BYTES`.

They are no state of the block (10_state.md, opening: "What the state is *not*"). A machine carries its
parameters as plain data (`State.par`), which no step changes, so that a statement for every state is a
statement for every value of the parameters (assumption log 2). The spec leaves no RESULT undefined, so there is
no free value here. -/

namespace Sys2Proof

/-- The two parameters of one instance of the block (00_scope.md R5). -/
structure Params where
  /-- `BASE`: byte address of the 256-byte register window on the host bus. -/
  base : Nat
  /-- `LIMIT_BYTES`: the largest value a channel's byte total may reach. -/
  limitBytes : Nat
  deriving DecidableEq, Repr

/-- The default of `LIMIT_BYTES` and the largest value it may take, `2^61 − 17` (R5; D22). -/
def maxLimitBytes : Nat := 2 ^ 61 - 17

/-- The ranges the spec gives the parameters (R5): `BASE` is a multiple of 256 and
`0 ≤ LIMIT_BYTES ≤ 2^61 − 17`. -/
def Params.wf (p : Params) : Bool :=
  decide (p.base % 256 = 0 ∧ p.limitBytes ≤ maxLimitBytes)

/-- The parameters of the machine that `State.reset` names: `LIMIT_BYTES` at the spec's default (R5);
`BASE` at 0, DESIGN CHOICE (R5 leaves it OPEN; assumption log 2). -/
def resetParams : Params := { base := 0, limitBytes := maxLimitBytes }

end Sys2Proof
end

