-- ==== Sys2Proof/Syntax.lean ====
section
/-! DEFINITION. The commands of the block, whole: one constructor per row of spec/opcode_table.json
(30_encoding.md R53). A command is the block's analogue of an instruction: one 32-bit word that the host
writes to `CMD`. Operands are the unsigned, zero-extended fields of R52; their ranges are checked in
WellFormed.lean. -/

namespace Sys2Proof

/-- The two hasher channels (00_scope.md, glossary "Channel"): `ch = 0` associated data, `ch = 1` message. -/
inductive Channel where
  | ad
  | msg
  deriving DecidableEq, Repr

/-- A command (30_encoding.md R53), with the operands of R52. -/
inductive Instr where
  /-- `NOP`, no operation (R64). -/
  | nop
  /-- `KEXP kl`, expand `KEY` under the key-length code `kl` (R77). -/
  | kexp (kl : Nat)
  /-- `ENC`, encrypt the state block (R80). -/
  | enc
  /-- `ARK r`, add round key `r` (R81). -/
  | ark (r : Nat)
  /-- `RND r`, one full round with round key `r` (R82). -/
  | rnd (r : Nat)
  /-- `RNDL r`, the final round with round key `r` (R83). -/
  | rndl (r : Nat)
  /-- `KCLR`, zeroize the AES engine (R78). -/
  | kclr
  /-- `PVKEY`, derive `H` and build the table (R97). -/
  | pvkey
  /-- `PVINIT`, start a new hash (R98). -/
  | pvinit
  /-- `PVUPD ch, n`, absorb the first `n` bytes of `X` into channel `ch` (R99). -/
  | pvupd (ch : Channel) (n : Nat)
  /-- `PVMUL`, one raw POLYVAL step on `X` (R100). -/
  | pvmul
  /-- `PVFIN`, complete the hash with the lengths block (R101). -/
  | pvfin
  /-- `PVCLR`, zeroize the POLYVAL engine (R102). -/
  | pvclr
  deriving DecidableEq, Repr

end Sys2Proof
end

