-- ==== Sys2Proof/WellFormed.lean ====
section
/-! DEFINITION. Which terms of `Instr` are commands: every operand fits its field of the command word
(30_encoding.md R52). `kl = 3`, a round index above `Nr` and a byte count of 17 to 31 are well formed: R54 says
that they decode to their command and fail with that command's own error code. -/

namespace Sys2Proof

/-- Every operand fits its field (R52): `kl` in two bits, `r` in four, `n` in five. -/
def Instr.wf : Instr → Bool
  | .nop => true
  | .kexp kl => decide (kl < 4)
  | .enc => true
  | .ark r => decide (r < 16)
  | .rnd r => decide (r < 16)
  | .rndl r => decide (r < 16)
  | .kclr => true
  | .pvkey => true
  | .pvinit => true
  | .pvupd _ n => decide (n < 32)
  | .pvmul => true
  | .pvfin => true
  | .pvclr => true

end Sys2Proof
end

