-- ==== Sys2Proof/Decode.lean ====
section
/-! DEFINITION. The decoder of the command word, total on every 32-bit word and rejecting by name, and after
it the encoder, both from 30_encoding.md R51 to R55. A command is one 32-bit word written to `CMD`; there is no
other length and no prefix (R51, R56), so the decoder reads a word, not a byte stream. -/

namespace Sys2Proof

/-- The assigned opcodes (30_encoding.md R53), one per row of the opcode table. -/
inductive Opcode where
  | nop
  | kexp
  | enc
  | ark
  | rnd
  | rndl
  | kclr
  | pvkey
  | pvinit
  | pvupd
  | pvmul
  | pvfin
  | pvclr
  deriving DecidableEq, Repr

/-- Why a word is illegal (30_encoding.md R55). Both kinds execute as `ERR_OPCODE`. -/
inductive DecodeError where
  /-- `OP` is none of the assigned opcodes. -/
  | unassignedOpcode
  /-- `OP` is assigned, and a must-be-0 bit is set. -/
  | reservedBits
  deriving DecidableEq, Repr

/-- The field `OP`, bits 7:0 (R51). -/
def fieldOp (c : Word) : BitVec 8 := c.extractLsb' 0 8

/-- The operand `kl = c[9:8]` (R52). -/
def fieldKl (c : Word) : Nat := (c.extractLsb' 8 2).toNat

/-- The operand `r = c[11:8]` (R52). -/
def fieldR (c : Word) : Nat := (c.extractLsb' 8 4).toNat

/-- The operand `ch = c[8]` (R52): 0 is `AD`, 1 is `MSG`. -/
def fieldCh (c : Word) : Channel := if c.getLsbD 8 then .msg else .ad

/-- The operand `n = c[20:16]` (R52). -/
def fieldN (c : Word) : Nat := (c.extractLsb' 16 5).toNat

/-- The opcode map read from number to opcode (R53); every other number is unassigned. -/
def opcodeOf : BitVec 8 → Option Opcode
  | 0x00#8 => some .nop
  | 0x01#8 => some .kexp
  | 0x02#8 => some .enc
  | 0x03#8 => some .ark
  | 0x04#8 => some .rnd
  | 0x05#8 => some .rndl
  | 0x06#8 => some .kclr
  | 0x10#8 => some .pvkey
  | 0x11#8 => some .pvinit
  | 0x12#8 => some .pvupd
  | 0x13#8 => some .pvmul
  | 0x14#8 => some .pvfin
  | 0x15#8 => some .pvclr
  | _ => none

/-- The mask of the operand bits that may be non-zero beside `OP` (R53, R54). -/
def allowedMask : Opcode → Word
  | .kexp => 0x00000300#32
  | .ark => 0x00000F00#32
  | .rnd => 0x00000F00#32
  | .rndl => 0x00000F00#32
  | .pvupd => 0x001F0100#32
  | .nop => 0#32
  | .enc => 0#32
  | .kclr => 0#32
  | .pvkey => 0#32
  | .pvinit => 0#32
  | .pvmul => 0#32
  | .pvfin => 0#32
  | .pvclr => 0#32

/-- The command of an opcode, with its operands pulled out of the word `c` (R52, R54). -/
def instrOf (c : Word) : Opcode → Instr
  | .nop => .nop
  | .kexp => .kexp (fieldKl c)
  | .enc => .enc
  | .ark => .ark (fieldR c)
  | .rnd => .rnd (fieldR c)
  | .rndl => .rndl (fieldR c)
  | .kclr => .kclr
  | .pvkey => .pvkey
  | .pvinit => .pvinit
  | .pvupd => .pvupd (fieldCh c) (fieldN c)
  | .pvmul => .pvmul
  | .pvfin => .pvfin
  | .pvclr => .pvclr

/-- `decode(c)` of 30_encoding.md R54; R54's `Illegal` is one of the two named errors. -/
def decode (c : Word) : Except DecodeError Instr :=
  match opcodeOf (fieldOp c) with
  | none => .error .unassignedOpcode
  | some op =>
    if c &&& ~~~(0xFF#32 ||| allowedMask op) ≠ 0#32 then .error .reservedBits
    else .ok (instrOf c op)

/-- The number of an opcode (R53). -/
def opcodeNumber : Opcode → Word
  | .nop => 0x00#32
  | .kexp => 0x01#32
  | .enc => 0x02#32
  | .ark => 0x03#32
  | .rnd => 0x04#32
  | .rndl => 0x05#32
  | .kclr => 0x06#32
  | .pvkey => 0x10#32
  | .pvinit => 0x11#32
  | .pvupd => 0x12#32
  | .pvmul => 0x13#32
  | .pvfin => 0x14#32
  | .pvclr => 0x15#32

/-- The opcode of a command. -/
def opcodeFor : Instr → Opcode
  | .nop => .nop
  | .kexp _ => .kexp
  | .enc => .enc
  | .ark _ => .ark
  | .rnd _ => .rnd
  | .rndl _ => .rndl
  | .kclr => .kclr
  | .pvkey => .pvkey
  | .pvinit => .pvinit
  | .pvupd _ _ => .pvupd
  | .pvmul => .pvmul
  | .pvfin => .pvfin
  | .pvclr => .pvclr

/-- The bit `c[8]` of a channel (R52). -/
def channelBit : Channel → Word
  | .ad => 0#32
  | .msg => 1#32

/-- The operand bits of a command, in their places (R51, R52). -/
def operandBits : Instr → Word
  | .kexp kl => BitVec.ofNat 32 kl <<< 8
  | .ark r => BitVec.ofNat 32 r <<< 8
  | .rnd r => BitVec.ofNat 32 r <<< 8
  | .rndl r => BitVec.ofNat 32 r <<< 8
  | .pvupd ch n => BitVec.ofNat 32 n <<< 16 ||| channelBit ch <<< 8
  | .nop => 0#32
  | .enc => 0#32
  | .kclr => 0#32
  | .pvkey => 0#32
  | .pvinit => 0#32
  | .pvmul => 0#32
  | .pvfin => 0#32
  | .pvclr => 0#32

/-- The command word of a well-formed command (R57: `ARK r` is `(r << 8) OR 0x03`, and so on). -/
def encode (i : Instr) : Word := operandBits i ||| opcodeNumber (opcodeFor i)

/-- The command that the decoder reads from a row's bits, as spec/opcode_table.json numbers them: every row
has 32 bits and bit 0 is the least significant bit of the command word. -/
def decodeTableWord (nbits w : Nat) : Option Instr :=
  match decode (BitVec.ofNat 32 (w % 2 ^ nbits)) with
  | .ok i => some i
  | .error _ => none

end Sys2Proof
end

