-- ==== Sys2Proof/Machine/State.lean ====
section
/-! DEFINITION. The state of the machine as plain data, the reasons a step can stop, and the state after reset.

The block's own state is exactly the record of 10_state.md R11, one field each. Three fields are the MODEL's own:
`par` (the parameters `BASE` and `LIMIT_BYTES`, which no step changes), `pending` (the host's events that have not
yet reached the block, oldest first) and `answers` (the values the block has returned to host reads, newest
first). The block fetches nothing and has no program counter (R13): what it does next is what the host sends next,
so the host's events are the input of the step (assumption log 1). -/

namespace Sys2Proof.Machine

/-- A key-length code that a key schedule can have (10_state.md R17): 0 for a 16-byte key, 1 for 24, 2 for 32.
`KLEN = 3` never occurs (R17, R33; assumption log 7). -/
inductive KeyLen where
  | k128
  | k192
  | k256
  deriving DecidableEq, Repr

/-- `PHASE` (10_state.md R25): which channel may still take data. The code 3 never occurs (R33). -/
inductive Phase where
  /-- Associated data may still be absorbed. -/
  | ad
  /-- Message data has started, and associated data is complete. -/
  | msg
  /-- `PVFIN` has folded in the lengths block. -/
  | final
  deriving DecidableEq, Repr

/-- The codes that `ERR` takes (60_exceptions.md R104). Codes 10 to 15 are never written. -/
inductive ErrCode where
  /-- 0 `OK`: the last command succeeded. -/
  | ok
  /-- 1 `ERR_OPCODE`: illegal command word. -/
  | opcode
  /-- 2 `ERR_KEYLEN`: `KEXP` with `kl = 3`. -/
  | keylen
  /-- 3 `ERR_NOKEY`: a cipher command with no key schedule. -/
  | nokey
  /-- 4 `ERR_ROUND`: round index above `Nr`. -/
  | round
  /-- 5 `ERR_NOTABLE`: a hashing command with no hash key and table. -/
  | notable
  /-- 6 `ERR_ORDER`: associated data after message data, or data or `PVFIN` after `PVFIN`. -/
  | order
  /-- 7 `ERR_LEN`: `PVUPD` byte count above 16. -/
  | len
  /-- 8 `ERR_LIMIT`: `PVUPD` would pass `LIMIT_BYTES`. -/
  | limit
  /-- 9 `ERR_FATAL`: `PVUPD` or `PVFIN` while `FATAL = 1`. -/
  | fatal
  deriving DecidableEq, Repr

/-- One hasher channel (10_state.md R24): `PB[ch]`, `NACT[ch]` and `TOT[ch]`. The accumulator is shared and stands
in `State.g` (90_conflicts.md C1). -/
structure Hasher where
  /-- `PB[ch]`: the pending-block cache, 16 bytes, of which the first `NACT[ch]` are active. -/
  pb : Block
  /-- `NACT[ch]`: the count of active cached bytes, 0 to 15, as `STATUS` shows it in four bits (R28). -/
  nact : BitVec 4
  /-- `TOT[ch]`: the total bytes absorbed, 64 bits (R11; D40). -/
  tot : BitVec 64
  deriving DecidableEq, Repr

/-- What reaches the block from outside, one at a time (20_memory.md R46; 70_reset_and_hazards.md R121). -/
inductive HostEvent where
  /-- The reset input `RST` (R121); power-on is a reset. -/
  | rst
  /-- A host read of `bits` bits at byte address `addr` of the host bus. -/
  | read (bits : Nat) (addr : Nat)
  /-- A host write of `bits` bits at byte address `addr`; of a legal, 32-bit access `value` is the word
  written. -/
  | write (bits : Nat) (addr : Nat) (value : Word)
  deriving DecidableEq, Repr

/-- Why a host access fails. The block itself never stops: after either of these its state is unchanged. -/
inductive Fault where
  /-- `raise BusError(off)`: an access to the window that is not 32 bits wide, is not aligned, or is at a reserved
  offset (20_memory.md R39, R40; 60_exceptions.md R109: "a model of the block alone returns a fault for that access
  and no state change"). Raised by Machine/Bus.lean. Safe: the model stops, where the hardware goes on unchanged (assumption log 3). -/
  | busError (off : Nat)
  /-- An access at a byte address outside the window `BASE ≤ a < BASE + 256` (R39); it is no access to this block, and
  what answers it is the platform's (R44, R117). Raised by Machine/Bus.lean. Safe: the model stops (assumption log 4). -/
  | outsideWindow (addr : Nat)
  deriving DecidableEq, Repr

/-- Why the model has no meaning for a command. Every command of the table has one, so nothing raises this. -/
inductive Refusal where
  /-- A command without a meaning yet, by its mnemonic. Raised only by an arm of `exec` that is not modelled, and there
  is none. Safe: the model stops. -/
  | notModelled (mnemonic : String)
  deriving DecidableEq, Repr

/-- The machine: the record of 10_state.md R11, and the model's own `par`, `pending` and `answers`. -/
structure State where
  /-- `KEY`, 32 bytes, the AES key (R14). -/
  key : KeyStr
  /-- `ST`, 16 bytes, the AES state block (R15). -/
  st : Block
  /-- `RK`, 240 bytes as the 60 words `w[0..59]`, the working key schedule (R16). -/
  rk : Vector Word 60
  /-- `KSV`: `RK` holds a schedule (R17). -/
  ksv : Bool
  /-- `KLEN`: the key-length code of `RK` (R17). -/
  klen : KeyLen
  /-- `X`, 16 bytes in POLYVAL order, the POLYVAL input block (R18). -/
  x : Block
  /-- `HK`, 16 bytes in POLYVAL order, the raw hash key (R19). -/
  hk : Block
  /-- `H`, 16 bytes in GHASH order, the doubled hash key (R20). -/
  h : Block
  /-- `T[0..255]`, 16 bytes each in GHASH order, the multiplication table (R21). -/
  t : Vector Block 256
  /-- `TBV`: `H` and `T` hold a derived key and table (R22). -/
  tbv : Bool
  /-- `G`, 16 bytes in GHASH order, the shared POLYVAL accumulator (R23). -/
  g : Block
  /-- `PB[0]`, `NACT[0]`, `TOT[0]`: the associated-data channel (R24). -/
  ad : Hasher
  /-- `PB[1]`, `NACT[1]`, `TOT[1]`: the message channel (R24). -/
  msg : Hasher
  /-- `PHASE` (R25). -/
  phase : Phase
  /-- `FATAL`: a length limit was exceeded (R26). -/
  fatal : Bool
  /-- `ERR`: the error code of the last command (R27). -/
  err : ErrCode
  /-- `TIDX`, 8 bits: index of the table entry shown in `TDAT` (R30). -/
  tidx : BitVec 8
  /-- The model's own: the parameters of this instance (00_scope.md R5). -/
  par : Params
  /-- The model's own: the host's events that have not reached the block, oldest first. -/
  pending : List HostEvent
  /-- The model's own: the values returned to host reads, newest first. -/
  answers : List Word
  deriving DecidableEq, Repr

/-- The answer of a command or of a step. -/
abbrev Result := Host.Outcome State Fault Refusal

/-- A hasher channel after reset: empty (10_state.md R34). -/
def emptyHasher : Hasher := { pb := 0#128, nact := 0#4, tot := 0#64 }

/-- The machine right after reset (10_state.md R34: every element is given, none is unspecified), with the parameters
of Config.lean, no event pending and nothing answered. -/
def State.reset : State where
  key := 0#256
  st := 0#128
  rk := Vector.replicate 60 0#32
  ksv := false
  klen := .k128
  x := 0#128
  hk := 0#128
  h := 0#128
  t := Vector.replicate 256 0#128
  tbv := false
  g := 0#128
  ad := emptyHasher
  msg := emptyHasher
  phase := .ad
  fatal := false
  err := .ok
  tidx := 0#8
  par := resetParams
  pending := []
  answers := []

end Sys2Proof.Machine
end

