-- ==== Sys2Proof/Machine/Operands.lean ====
section
/-! DEFINITION. What the operands of a command select (30_encoding.md R52): the key length of a code `kl`, `Nk` and
`Nr` (42_aes_key_expansion.md R73), the range of a round index `r` (43_aes_cipher.md R81), the byte count `n` and
the channel `ch` (45_polyval_engine.md R99). -/

namespace Sys2Proof.Machine

/-- The key length of an operand `kl` (R52, R73); 3 is invalid. Only 0 to 3 fit the field (assumption log 8). -/
def keyLenOf : Nat → Option KeyLen
  | 0 => some .k128
  | 1 => some .k192
  | 2 => some .k256
  | _ => none

/-- The code of a key length (10_state.md R17). -/
def KeyLen.num : KeyLen → Nat
  | .k128 => 0
  | .k192 => 1
  | .k256 => 2

/-- `Nk = 4 + 2·KLEN`, the words of the key (R17, R73). -/
def KeyLen.nk (kl : KeyLen) : Nat := 4 + 2 * kl.num

/-- `Nr = 10 + 2·KLEN`, the rounds (R17, R73). -/
def KeyLen.nr (kl : KeyLen) : Nat := 10 + 2 * kl.num

/-- The number of words of a schedule, `4·(Nr+1)` (R75). -/
def KeyLen.words (kl : KeyLen) : Nat := 4 * (kl.nr + 1)

/-- The channel `ch` of the machine (10_state.md R24). -/
def State.chan (s : State) : Channel → Hasher
  | .ad => s.ad
  | .msg => s.msg

/-- The machine with the channel `ch` replaced. -/
def State.setChan (s : State) (ch : Channel) (c : Hasher) : State :=
  match ch with
  | .ad => { s with ad := c }
  | .msg => { s with msg := c }

end Sys2Proof.Machine
end

