-- ==== Sys2Proof/Machine/Flags.lean ====
section
/-! DEFINITION. The status flags: the numbers of the error codes (60_exceptions.md R104) and of the phases, and the
`STATUS` word (10_state.md R28). The block has no condition codes (R31). -/

namespace Sys2Proof.Machine

/-- The number of an error code (R104). -/
def ErrCode.code : ErrCode → BitVec 4
  | .ok => 0#4
  | .opcode => 1#4
  | .keylen => 2#4
  | .nokey => 3#4
  | .round => 4#4
  | .notable => 5#4
  | .order => 6#4
  | .len => 7#4
  | .limit => 8#4
  | .fatal => 9#4

/-- The number of a phase (R25, R28). -/
def Phase.code : Phase → BitVec 2
  | .ad => 0#2
  | .msg => 1#2
  | .final => 2#2

/-- A flag as one bit. -/
def flagBit (b : Bool) : BitVec 1 := if b then 1#1 else 0#1

/-- The `STATUS` word (R28), its fields from bit 31 down; bits 31:24 and 15:11 are reserved and read as 0. -/
def statusWord (s : State) : Word :=
  0#8 ++ s.msg.nact ++ s.ad.nact ++ 0#5 ++ BitVec.ofNat 2 s.klen.num ++ flagBit s.fatal ++
    s.phase.code ++ flagBit s.tbv ++ flagBit s.ksv ++ s.err.code

end Sys2Proof.Machine
end

