-- ==== Sys2Proof/Machine/Bytes.lean ====
section
/-! DEFINITION. Byte strings and byte order: the byte accessors of a block and of the key, the reversal `rev`
(00_scope.md R8, R10) and the little-endian register lanes (20_memory.md R37). Byte `i` of a string stands at
bits `8·(n−1−i)+7` to `8·(n−1−i)` of its bit vector, `n` the string's length in bytes. -/

namespace Sys2Proof.Machine

/-- Byte `i` of a block, `0 ≤ i ≤ 15` (00_scope.md R6). -/
def byteAt (b : Block) (i : Nat) : Byte := b.extractLsb' (8 * (15 - i)) 8

/-- The block whose byte `i` is `f i`. -/
def blockOf (f : Nat → Byte) : Block :=
  f 0 ++ f 1 ++ f 2 ++ f 3 ++ f 4 ++ f 5 ++ f 6 ++ f 7 ++
    f 8 ++ f 9 ++ f 10 ++ f 11 ++ f 12 ++ f 13 ++ f 14 ++ f 15

/-- The block `b` with byte `i` replaced by `v`. -/
def setByteAt (b : Block) (i : Nat) (v : Byte) : Block :=
  blockOf fun j => if j = i then v else byteAt b j

/-- `rev(b)[i] = b[15 − i]` (00_scope.md R8): between POLYVAL order and GHASH order (R10). -/
def rev (b : Block) : Block := blockOf fun i => byteAt b (15 - i)

/-- The first `n` bytes of a block, in order. -/
def bytesUpTo (n : Nat) (b : Block) : List Byte := (List.range n).map (byteAt b)

/-- Byte `i` of the 32-byte string `KEY`, `0 ≤ i ≤ 31` (10_state.md R14). -/
def keyByteAt (k : KeyStr) (i : Nat) : Byte := k.extractLsb' (8 * (31 - i)) 8

/-- The 32-byte string whose byte `i` is `f i`. -/
def keyOf (f : Nat → Byte) : KeyStr := blockOf f ++ blockOf fun i => f (16 + i)

/-- Byte `i` of the value `LE_4(v)`: bits `8i+7` to `8i` of `v` (00_scope.md R8, 20_memory.md R37). -/
def laneByte (v : Word) (i : Nat) : Byte := v.extractLsb' (8 * i) 8

/-- `LE` of four bytes (00_scope.md R8): the first byte is the least significant. -/
def leWord (b0 b1 b2 b3 : Byte) : Word := b3 ++ b2 ++ b1 ++ b0

/-- The register value `LE(b[4j..4j+3])` of lane `j` of a block (20_memory.md R37). -/
def lane (b : Block) (j : Nat) : Word :=
  leWord (byteAt b (4 * j)) (byteAt b (4 * j + 1)) (byteAt b (4 * j + 2)) (byteAt b (4 * j + 3))

/-- `b[4j..4j+3] <- LE_4(v)` (20_memory.md R42): exactly the four bytes of lane `j` change. -/
def setLane (b : Block) (j : Nat) (v : Word) : Block :=
  blockOf fun i => if i / 4 = j then laneByte v (i % 4) else byteAt b i

/-- `KEY[4j..4j+3] <- LE_4(v)` (20_memory.md R42). -/
def setKeyLane (k : KeyStr) (j : Nat) (v : Word) : KeyStr :=
  keyOf fun i => if i / 4 = j then laneByte v (i % 4) else keyByteAt k i

/-- The word of four bytes in the order FIPS-197 writes it: the first byte is the most significant
(10_state.md R16: "`w[i]` byte 0 the first byte of the word"). -/
def beWord (b0 b1 b2 b3 : Byte) : Word := b0 ++ b1 ++ b2 ++ b3

/-- Byte `i` of a schedule word, `0 ≤ i ≤ 3`, byte 0 the most significant. -/
def wordByteAt (w : Word) (i : Nat) : Byte := w.extractLsb' (8 * (3 - i)) 8

end Sys2Proof.Machine
end

