-- ==== Sys2Proof/Machine/AesPrimitives.lean ====
section
/-! DEFINITION. The AES primitives of 41_aes_primitives.md (R65 to R72): byte arithmetic in GF(2^8), the
S-box, the four round transformations and the two round functions. The state has row `r`, column `c` at byte
`s[r + 4c]` (R65), so bytes `4c` to `4c+3` of a block are column `c`. -/

namespace Sys2Proof.Machine

/-- `xtime(a)` of R66: doubling in GF(2^8) modulo `0x11B`. -/
def xtime (a : Byte) : Byte := (a <<< 1) ^^^ (if a.getLsbD 7 then 0x1B#8 else 0x00#8)

/-- `xtime^i(a)` of R66. -/
def xtimePow : Nat → Byte → Byte
  | 0, a => a
  | k + 1, a => xtime (xtimePow k a)

/-- `a • b` of R66: the XOR over the set bits `i` of `b` of `xtime^i(a)`. -/
def gfMul8 (a b : Byte) : Byte :=
  (List.range 8).foldl (fun acc i => if b.getLsbD i then acc ^^^ xtimePow i a else acc) 0#8

/-- The sixteen rows of the S-box table of R67, row `Y` as a string of sixteen bytes. -/
def sboxRows : List Block :=
  [0x637c777bf26b6fc53001672bfed7ab76#128,
   0xca82c97dfa5947f0add4a2af9ca472c0#128,
   0xb7fd9326363ff7cc34a5e5f171d83115#128,
   0x04c723c31896059a071280e2eb27b275#128,
   0x09832c1a1b6e5aa0523bd6b329e32f84#128,
   0x53d100ed20fcb15b6acbbe394a4c58cf#128,
   0xd0efaafb434d338545f9027f503c9fa8#128,
   0x51a3408f929d38f5bcb6da2110fff3d2#128] ++
  [0xcd0c13ec5f974417c4a77e3d645d1973#128,
   0x60814fdc222a908846eeb814de5e0bdb#128,
   0xe0323a0a4906245cc2d3ac629195e479#128,
   0xe7c8376d8dd54ea96c56f4ea657aae08#128,
   0xba78252e1ca6b4c6e8dd741f4bbd8b8a#128,
   0x703eb5664803f60e613557b986c11d9e#128,
   0xe1f8981169d98e949b1e87e9ce5528df#128,
   0x8ca1890dbfe6426841992d0fb054bb16#128]

/-- The S-box `S` of R67: `S(0xYZ)` is the entry in row `Y`, column `Z`. -/
def sbox (a : Byte) : Byte := byteAt (sboxRows.getD (a.toNat / 16) 0#128) (a.toNat % 16)

/-- `SubBytes(s)[i] = S(s[i])` (R68). -/
def subBytes (s : Block) : Block := blockOf fun i => sbox (byteAt s i)

/-- `ShiftRows(s)[r + 4c] = s[r + 4·((c + r) mod 4)]` (R69); byte `i` has `r = i mod 4`, `c = i div 4`. -/
def shiftRows (s : Block) : Block :=
  blockOf fun i => byteAt s (i % 4 + 4 * ((i / 4 + i % 4) % 4))

/-- One column of `MixColumns` (R70). -/
def mixColumn (a0 a1 a2 a3 : Byte) : Word :=
  beWord
    (gfMul8 0x02#8 a0 ^^^ gfMul8 0x03#8 a1 ^^^ a2 ^^^ a3)
    (a0 ^^^ gfMul8 0x02#8 a1 ^^^ gfMul8 0x03#8 a2 ^^^ a3)
    (a0 ^^^ a1 ^^^ gfMul8 0x02#8 a2 ^^^ gfMul8 0x03#8 a3)
    (gfMul8 0x03#8 a0 ^^^ a1 ^^^ a2 ^^^ gfMul8 0x02#8 a3)

/-- Column `c` of `MixColumns(s)`. -/
def mixedColumn (s : Block) (c : Nat) : Word :=
  mixColumn (byteAt s (4 * c)) (byteAt s (4 * c + 1)) (byteAt s (4 * c + 2)) (byteAt s (4 * c + 3))

/-- `MixColumns(s)` (R70). -/
def mixColumns (s : Block) : Block :=
  mixedColumn s 0 ++ mixedColumn s 1 ++ mixedColumn s 2 ++ mixedColumn s 3

/-- `AddRoundKey(s, k) = s ⊕ k` (R71). -/
def addRoundKey (s k : Block) : Block := s ^^^ k

/-- `Round(s, k)` (R72). -/
def aesRound (s k : Block) : Block := addRoundKey (mixColumns (shiftRows (subBytes s))) k

/-- `FinalRound(s, k)` (R72), without `MixColumns`. -/
def finalRound (s k : Block) : Block := addRoundKey (shiftRows (subBytes s)) k

end Sys2Proof.Machine
end

