-- ==== Sys2Proof/Machine/KeySchedule.lean ====
section
/-! DEFINITION. The AES key expansion (42_aes_key_expansion.md R73 to R76) and the cipher over a schedule
(43_aes_cipher.md R79). A schedule word has byte 0 most significant, as FIPS-197 writes it (10_state.md R16). -/

namespace Sys2Proof.Machine

/-- `Rcon[j]` is `xtime^(j−1)(0x01)` for `j = 1..10` (R74). -/
def rcon (j : Nat) : Byte := xtimePow (j - 1) 0x01#8

/-- `RotWord(a0 a1 a2 a3) = a1 a2 a3 a0` (R74). -/
def rotWord (w : Word) : Word :=
  beWord (wordByteAt w 1) (wordByteAt w 2) (wordByteAt w 3) (wordByteAt w 0)

/-- `SubWord(a0 a1 a2 a3) = S(a0) S(a1) S(a2) S(a3)` (R74). -/
def subWord (w : Word) : Word :=
  beWord (sbox (wordByteAt w 0)) (sbox (wordByteAt w 1)) (sbox (wordByteAt w 2)) (sbox (wordByteAt w 3))

/-- Word `i` of the key string: `k[4i..4i+3]` (R75). -/
def keyWordAt (k : KeyStr) (i : Nat) : Word :=
  beWord (keyByteAt k (4 * i)) (keyByteAt k (4 * i + 1)) (keyByteAt k (4 * i + 2)) (keyByteAt k (4 * i + 3))

/-- The word `t` that step `i` of the expansion adds to `w[i − Nk]`, from `w[i − 1]` (R75). -/
def scheduleTerm (kl : KeyLen) (i : Nat) (prev : Word) : Word :=
  if i % kl.nk = 0 then subWord (rotWord prev) ^^^ beWord (rcon (i / kl.nk)) 0#8 0#8 0#8
  else if kl.nk = 8 ∧ i % kl.nk = 4 then subWord prev
  else prev

/-- `m` steps of the loop of `KeyExpansion` (R75), from step `i`. The words so far stand newest first, so that `w[i − 1]`
is at place 0 and `w[i − Nk]` at place `Nk − 1`. -/
def expandLoop (kl : KeyLen) : Nat → Nat → List Word → List Word
  | 0, _, ws => ws
  | m + 1, i, ws =>
    expandLoop kl m (i + 1) ((ws.getD (kl.nk - 1) 0#32 ^^^ scheduleTerm kl i (ws.getD 0 0#32)) :: ws)

/-- `KeyExpansion(k, kl)` (R75): the words `w[0..4·(Nr+1)−1]`. -/
def keyExpansion (kl : KeyLen) (k : KeyStr) : List Word :=
  (expandLoop kl (kl.words - kl.nk) kl.nk ((List.range kl.nk).map (keyWordAt k)).reverse).reverse

/-- The 60 words that `KEXP` leaves in `RK` (R77): the expansion, and zero words after it. -/
def scheduleFile (kl : KeyLen) (k : KeyStr) : Vector Word 60 :=
  Vector.ofFn fun i : Fin 60 => (keyExpansion kl k).getD i.val 0#32

/-- Word `i` of the round-key file. Every index a round key uses is below 60 (assumption log 14). -/
def rkWord (rk : Vector Word 60) (i : Nat) : Word := rk[i]?.getD 0#32

/-- Round key `RK(r) = w[4r] || w[4r+1] || w[4r+2] || w[4r+3]` (R76). -/
def roundKey (rk : Vector Word 60) (r : Nat) : Block :=
  rkWord rk (4 * r) ++ rkWord rk (4 * r + 1) ++ rkWord rk (4 * r + 2) ++ rkWord rk (4 * r + 3)

/-- `Cipher(s)` under a schedule of `nr` rounds (R79). -/
def cipher (rk : Vector Word 60) (nr : Nat) (s : Block) : Block :=
  finalRound
    ((List.range (nr - 1)).foldl (fun b r => aesRound b (roundKey rk (r + 1)))
      (addRoundKey s (roundKey rk 0)))
    (roundKey rk nr)

end Sys2Proof.Machine
end

