-- ==== Sys2Proof/Machine/PolyvalField.lean ====
section
/-! DEFINITION. GF(2^128) in the GCM convention and the doubling table (44_polyval_field.md R85 to R94). A
block in GHASH order is its own `BE(b)`, so the coefficient of `x^k` is bit `127 − k` (R85). -/

namespace Sys2Proof.Machine

/-- `R = E1 00 … 00`, which is `1 + x + x^2 + x^7` (R85). -/
def polyR : Block := 0xE1#128 <<< 120

/-- `ONE = 80 00 … 00`, the unit `x^0` (R85). -/
def polyOne : Block := 1#128 <<< 127

/-- `mulX(b)`, "doubling" (R86). -/
def mulX (v : Block) : Block := (v >>> 1) ^^^ (if v.getLsbD 0 then polyR else 0#128)

/-- `divX(b)`, "halving" (R87). -/
def divX (v : Block) : Block :=
  ((if v.getLsbD 127 then v ^^^ polyR else v) <<< 1) ||| (if v.getLsbD 127 then 1#128 else 0#128)

/-- `mulX` applied `k` times. -/
def mulXPow : Nat → Block → Block
  | 0, v => v
  | k + 1, v => mulX (mulXPow k v)

/-- The loop of `gfmul` (R88) with `k` coefficients of `a` still to take, so that the next is
`c_i = BE(a)[127 − i]` with `127 − i = k − 1`; `v` is `b·x^i` and `z` the sum so far. -/
def gfmulLoop (a : Block) : Nat → Block → Block → Block
  | 0, _, z => z
  | k + 1, v, z => gfmulLoop a k (mulX v) (if a.getLsbD k then z ^^^ v else z)

/-- `gfmul(a, b)`, the field product (R88). -/
def gfmul (a b : Block) : Block := gfmulLoop a 128 b 0#128

/-- `H = mulX(rev(HK))` (R89). -/
def hashKey (hk : Block) : Block := mulX (rev hk)

/-- `T[1] = H·x^7` (R90). -/
def tableOne (h : Block) : Block := mulXPow 7 h

/-- Entry `n` of `Table(H)` by the source's recurrence (R90): `T[0] = 0`, `T[1] = H·x^7`,
`T[n] = T[n/2]/x` for even `n ≥ 2`, and `T[n+1] = T[n] ⊕ T[1]`. The first argument bounds the halvings; eight
reach every index of the table. -/
def tableEntry (h : Block) : Nat → Nat → Block
  | 0, _ => 0#128
  | fuel + 1, n =>
    if n = 0 then 0#128
    else if n = 1 then tableOne h
    else if n % 2 = 0 then divX (tableEntry h fuel (n / 2))
    else divX (tableEntry h fuel (n / 2)) ^^^ tableOne h

/-- `Table(H)` (R90), 256 entries. -/
def table (h : Block) : Vector Block 256 := Vector.ofFn fun v : Fin 256 => tableEntry h 8 v.val

/-- `β(v) = v || 0^15` (R91). -/
def beta (v : Byte) : Block := v ++ 0#120

/-- The POLYVAL step `Step(G, blk) = gfmul(G ⊕ rev(blk), H)` (R93), `blk` in POLYVAL order. -/
def polyStep (h g blk : Block) : Block := gfmul (g ^^^ rev blk) h

/-- `BE_8(8·TOT)` of a byte total (R94), exact for every total below `2^61` (assumption log 6). -/
def bitLength (tot : BitVec 64) : BitVec 64 := BitVec.ofNat 64 (8 * tot.toNat)

/-- The lengths block `L = BE_8(8·TOT[1]) || BE_8(8·TOT[0])` in GHASH order (R94). -/
def lengthsBlock (totAd totMsg : BitVec 64) : Block := bitLength totMsg ++ bitLength totAd

end Sys2Proof.Machine
end

