-- ==== Sys2Proof/Machine/Ops.lean ====
section
/-! DEFINITION. The operations that the commands share: how a command ends (40_command_dispatch.md R59, R61), the two
hashing helpers (45_polyval_engine.md R96) and reset (70_reset_and_hazards.md R121).

The block takes no exception: it has no trap entry and no return (60_exceptions.md R110, R111), no interrupts (R114) and
one mode (R115). What stands in the place of taking an exception is `fail E`, one shared operation: `failed`. -/

namespace Sys2Proof.Machine

/-- `fail E` (R61): the state changes are `ERR <- E` and, when `E = ERR_LIMIT`, `FATAL <- 1`; nothing else. -/
def State.failed (s : State) (e : ErrCode) : State :=
  { s with err := e, fatal := if e = .limit then true else s.fatal }

/-- A command that no check ended: `ERR <- OK` (R59). -/
def State.done (s : State) : State := { s with err := .ok }

/-- The command ends with the error code `e`; the `CMD` write itself completes (60_exceptions.md R103). -/
def fail (e : ErrCode) (s : State) : Result := .next (s.failed e)

/-- The command ends with success, its effects made. -/
def succeed (s : State) : Result := .next s.done

/-- `check COND else E` (R63): if not `COND`, the command ends with `fail E`, and otherwise it goes on. -/
def check (cond : Prop) [Decidable cond] (e : ErrCode) (s : State) (go : Result) : Result :=
  if cond then go else fail e s

/-- `Flush(ch)` (R96): a partial block, padded with zeros, is stepped. -/
def State.flush (s : State) (ch : Channel) : State :=
  if (s.chan ch).nact = 0#4 then s
  else
    { s with g := polyStep s.h s.g (s.chan ch).pb }.setChan ch
      { s.chan ch with pb := 0#128, nact := 0#4 }

/-- `Absorb(ch, byte)` (R96): the byte is cached, and a full cache is stepped at once. -/
def State.absorb (s : State) (ch : Channel) (b : Byte) : State :=
  let pb := setByteAt (s.chan ch).pb (s.chan ch).nact.toNat b
  if (s.chan ch).nact.toNat + 1 = 16 then
    { s with g := polyStep s.h s.g pb }.setChan ch { s.chan ch with pb := 0#128, nact := 0#4 }
  else s.setChan ch { s.chan ch with pb := pb, nact := (s.chan ch).nact + 1#4 }

/-- Absorb the bytes in order. -/
def State.absorbAll (s : State) (ch : Channel) (bs : List Byte) : State :=
  bs.foldl (fun s b => s.absorb ch b) s

/-- `TOT[ch] <- TOT[ch] + n` (45_polyval_engine.md R99); the sum stays below `2^64` by R33 clause 2 (assumption log 6). -/
def State.addTotal (s : State) (ch : Channel) (n : Nat) : State :=
  s.setChan ch { s.chan ch with tot := (s.chan ch).tot + BitVec.ofNat 64 n }

/-- The first message data completes the associated data (R99): `Flush(0)` and `PHASE <- MSG`. -/
def State.openChannel (s : State) (ch : Channel) : State :=
  if ch = .msg ∧ s.phase = .ad then { s.flush .ad with phase := .msg } else s

/-- The accumulator and both channels empty, `PHASE = AD`, `FATAL = 0`: what `PVINIT` and `PVCLR` share
(45_polyval_engine.md R98, R102). -/
def State.emptyHash (s : State) : State :=
  { s with g := 0#128, ad := emptyHasher, msg := emptyHasher, phase := .ad, fatal := false }

/-- A reset (R121): every state element takes its value of 10_state.md R34, in one step. The parameters are no state, and
what the host sends later and has been answered earlier is the host's. -/
def State.afterReset (s : State) : State :=
  { State.reset with par := s.par, pending := s.pending, answers := s.answers }

end Sys2Proof.Machine
end

