-- ==== Sys2Proof/Machine/CipherCommands.lean ====
section
/-! DEFINITION. The cipher commands of the AES engine (43_aes_cipher.md R80 to R83). -/

namespace Sys2Proof.Machine

/-- The two checks that `ARK`, `RND` and `RNDL` make, in this order, before `ST` takes its new value (R81; R82 and R83:
"Errors: as `ARK`"). -/
def roundCommand (r : Nat) (s : State) (newSt : Block) : Result :=
  check (s.ksv = true) .nokey s <|
  check (r ≤ s.klen.nr) .round s <|
  succeed { s with st := newSt }

/-- `ENC` (R80): encrypt the state block. -/
def execEnc (s : State) : Result :=
  check (s.ksv = true) .nokey s <|
  succeed { s with st := cipher s.rk s.klen.nr s.st }

/-- `ARK r` (R81): add round key `r` to the state. -/
def execArk (r : Nat) (s : State) : Result :=
  roundCommand r s (addRoundKey s.st (roundKey s.rk r))

/-- `RND r` (R82): one full round with round key `r`. -/
def execRnd (r : Nat) (s : State) : Result :=
  roundCommand r s (aesRound s.st (roundKey s.rk r))

/-- `RNDL r` (R83): the final round with round key `r`. -/
def execRndl (r : Nat) (s : State) : Result :=
  roundCommand r s (finalRound s.st (roundKey s.rk r))

end Sys2Proof.Machine
end

