-- ==== Sys2Proof/Machine/Control.lean ====
section
/-! DEFINITION. The command with no operation (40_command_dispatch.md R64). -/

namespace Sys2Proof.Machine

/-- `NOP` (R64): nothing but `ERR <- OK`; it does not clear `FATAL`. -/
def execNop (s : State) : Result := succeed s

end Sys2Proof.Machine
end

