-- ==== Sys2Proof/Machine/KeyCommands.lean ====
section
/-! DEFINITION. The key commands of the AES engine (42_aes_key_expansion.md R77, R78). -/

namespace Sys2Proof.Machine

/-- `KEXP kl` (R77): expand `KEY` into the working key schedule; `kl = 3` fails and keeps the old schedule. -/
def execKexp (kl : Nat) (s : State) : Result :=
  match keyLenOf kl with
  | none => fail .keylen s
  | some k => succeed { s with rk := scheduleFile k s.key, ksv := true, klen := k }

/-- `KCLR` (R78): zeroize the AES engine. -/
def execKclr (s : State) : Result :=
  succeed
    { s with
      key := 0#256
      rk := Vector.replicate 60 0#32
      st := 0#128
      ksv := false
      klen := .k128 }

end Sys2Proof.Machine
end

