-- ==== Sys2Proof/Machine/PolyvalCommands.lean ====
section
/-! DEFINITION. The commands of the POLYVAL engine (45_polyval_engine.md R97 to R102). The checks of each stand in the order
of 60_exceptions.md R107. -/

namespace Sys2Proof.Machine

/-- `PVKEY` (R97): derive `H` from `HK` and build the table. -/
def execPvkey (s : State) : Result :=
  succeed { s with h := hashKey s.hk, t := table (hashKey s.hk), tbv := true }

/-- `PVINIT` (R98): start a new hash; the hash key, the table and `X` are kept. -/
def execPvinit (s : State) : Result := succeed s.emptyHash

/-- `PVUPD ch, n` (R99): absorb the first `n` bytes of `X` into channel `ch`. -/
def execPvupd (ch : Channel) (n : Nat) (s : State) : Result :=
  check (n ≤ 16) .len s <|
  check (s.tbv = true) .notable s <|
  check (s.fatal = false) .fatal s <|
  check (s.phase ≠ .final) .order s <|
  check (¬(ch = .ad ∧ s.phase = .msg)) .order s <|
  check ((s.chan ch).tot.toNat + n ≤ s.par.limitBytes) .limit s <|
  succeed (((s.openChannel ch).absorbAll ch (bytesUpTo n s.x)).addTotal ch n)

/-- `PVMUL` (R100): one raw POLYVAL step on `X`, in every phase. -/
def execPvmul (s : State) : Result :=
  check (s.tbv = true) .notable s <|
  succeed { s with g := polyStep s.h s.g s.x }

/-- What `PVFIN` does once its checks hold (R101): both channels are completed, associated data first, the lengths block is
stepped in GHASH order, and the hash is final. -/
def State.finishHash (s : State) : State :=
  let s' := (s.flush .ad).flush .msg
  { s' with g := gfmul (s'.g ^^^ lengthsBlock s'.ad.tot s'.msg.tot) s'.h, phase := .final }

/-- `PVFIN` (R101): complete the hash with the lengths block. -/
def execPvfin (s : State) : Result :=
  check (s.tbv = true) .notable s <|
  check (s.fatal = false) .fatal s <|
  check (s.phase ≠ .final) .order s <|
  succeed s.finishHash

/-- `PVCLR` (R102): zeroize the POLYVAL engine. -/
def execPvclr (s : State) : Result :=
  succeed
    { s.emptyHash with
      hk := 0#128
      x := 0#128
      h := 0#128
      t := Vector.replicate 256 0#128
      tbv := false
      tidx := 0#8 }

end Sys2Proof.Machine
end

