-- ==== Sys2Proof/Machine/Dispatch.lean ====
section
/-! DEFINITION. The meaning of every command: one arm per constructor of Instr. -/

namespace Sys2Proof.Machine

def exec (i : Instr) (s : State) : Host.Outcome State Fault Refusal :=
  match i with
  | .nop => Sys2Proof.Machine.execNop s
  | .kexp kl => Sys2Proof.Machine.execKexp kl s
  | .enc => Sys2Proof.Machine.execEnc s
  | .ark r => Sys2Proof.Machine.execArk r s
  | .rnd r => Sys2Proof.Machine.execRnd r s
  | .rndl r => Sys2Proof.Machine.execRndl r s
  | .kclr => Sys2Proof.Machine.execKclr s
  | .pvkey => Sys2Proof.Machine.execPvkey s
  | .pvinit => Sys2Proof.Machine.execPvinit s
  | .pvupd ch n => Sys2Proof.Machine.execPvupd ch n s
  | .pvmul => Sys2Proof.Machine.execPvmul s
  | .pvfin => Sys2Proof.Machine.execPvfin s
  | .pvclr => Sys2Proof.Machine.execPvclr s

end Sys2Proof.Machine
end

