-- ==== Sys2Proof/Machine/Window.lean ====
section
/-! DEFINITION. The register window (20_memory.md): the register map (R36), what a legal read returns (R41) and what a legal
write of a register other than `CMD` does (R42). The window is the block's one address space; it has no memory (R35; assumption log 5). -/

namespace Sys2Proof.Machine

/-- The registers of the window (R36); an index `j` is the register's number in its group. -/
inductive Reg where
  | cmd
  | status
  | key (j : Nat)
  | st (j : Nat)
  | x (j : Nat)
  | hk (j : Nat)
  | acc (j : Nat)
  | totLo (ch : Channel)
  | totHi (ch : Channel)
  | tidx
  | tdat (j : Nat)
  deriving DecidableEq, Repr

/-- The register map by word index, offset div 4 (R36); an index that is not mapped is reserved (R40). -/
def regOfIndex (k : Nat) : Option Reg :=
  if k = 0 then some .cmd
  else if k = 1 then some .status
  else if k < 4 then none
  else if k < 12 then some (.key (k - 4))
  else if k < 16 then some (.st (k - 12))
  else if k < 20 then some (.x (k - 16))
  else if k < 24 then some (.hk (k - 20))
  else if k < 28 then some (.acc (k - 24))
  else if k = 28 then some (.totLo .ad)
  else if k = 29 then some (.totHi .ad)
  else if k = 30 then some (.totLo .msg)
  else if k = 31 then some (.totHi .msg)
  else if k = 32 then some .tidx
  else if k < 37 then some (.tdat (k - 33))
  else none

/-- The register at a window offset (R36), none for an unaligned (R39) or a reserved offset (R40). -/
def regAt (off : Nat) : Option Reg := if off % 4 = 0 then regOfIndex (off / 4) else none

/-- `RegRead(off)` of a legal access (R41). `CMD`, `KEYj` and `HKj` are write-only and read as 0. -/
def regRead (s : State) : Reg → Word
  | .cmd => 0#32
  | .status => statusWord s
  | .key _ => 0#32
  | .st j => lane s.st j
  | .x j => lane s.x j
  | .hk _ => 0#32
  | .acc j => lane (rev s.g) j
  | .totLo ch => (s.chan ch).tot.extractLsb' 0 32
  | .totHi ch => (s.chan ch).tot.extractLsb' 32 32
  | .tidx => s.tidx.setWidth 32
  | .tdat j => lane (s.t[s.tidx.toNat]'s.tidx.isLt) j

/-- `RegWrite(off, v)` of a legal access to a register other than `CMD` (R42); a write of a read-only register has no effect.
A write of `CMD` runs a command and is in Machine/Bus.lean. -/
def regWrite (s : State) (r : Reg) (v : Word) : State :=
  match r with
  | .key j => { s with key := setKeyLane s.key j v }
  | .st j => { s with st := setLane s.st j v }
  | .x j => { s with x := setLane s.x j v }
  | .hk j => { s with hk := setLane s.hk j v }
  | .tidx => { s with tidx := v.setWidth 8 }
  | .cmd => s
  | .status => s
  | .acc _ => s
  | .totLo _ => s
  | .totHi _ => s
  | .tdat _ => s

end Sys2Proof.Machine
end

