-- ==== Sys2Proof/Machine/Bus.lean ====
section
/-! DEFINITION. One event from outside, performed completely before the next (20_memory.md R46): a host read, a host write, which
runs a command when it is a write of `CMD` (40_command_dispatch.md R59, R60), or a reset (70_reset_and_hazards.md R121). -/

namespace Sys2Proof.Machine

/-- Executing the command word `c` (40_command_dispatch.md R59): an illegal word fails with `ERR_OPCODE`. -/
def runWord (c : Word) (s : State) : Result :=
  match decode c with
  | .error _ => fail .opcode s
  | .ok i => exec i s

/-- The register that an access of `bits` bits at byte address `addr` reaches, or why it fails (20_memory.md R39, R40). -/
def target (p : Params) (bits addr : Nat) : Except Fault Reg :=
  if addr < p.base ∨ p.base + 256 ≤ addr then .error (.outsideWindow addr)
  else if bits ≠ 32 then .error (.busError (addr - p.base))
  else
    match regAt (addr - p.base) with
    | none => .error (.busError (addr - p.base))
    | some r => .ok r

/-- A legal read: it changes no state of the block, and the host gets its value (R41). -/
def readReg (r : Reg) (s : State) : State := { s with answers := regRead s r :: s.answers }

/-- A legal write (R42): a write of `CMD` executes a command, and any other register takes the value. -/
def writeReg (r : Reg) (v : Word) (s : State) : Result :=
  match r with
  | .cmd => runWord v s
  | r => .next (regWrite s r v)

/-- One event performed (R39, R41, R42; R121). -/
def perform (e : HostEvent) (s : State) : Result :=
  match e with
  | .rst => .next s.afterReset
  | .read bits addr =>
    match target s.par bits addr with
    | .error f => .fault f
    | .ok r => .next (readReg r s)
  | .write bits addr v =>
    match target s.par bits addr with
    | .error f => .fault f
    | .ok r => writeReg r v s

/-- The host's next event, taken from the events that wait (R46: in the order the host issues them). With none, the block waits,
always ready (60_exceptions.md R120), and nothing changes. -/
def performNext (s : State) : Result :=
  match s.pending with
  | [] => .next s
  | e :: rest => perform e { s with pending := rest }

/-- The host's next event is the legal write of the word `c` to `CMD` (20_memory.md R36: offset 0). -/
def State.withCommand (s : State) (c : Word) : State :=
  { s with pending := .write 32 s.par.base c :: s.pending }

end Sys2Proof.Machine
end

