-- ==== Sys2Proof/Machine/Step.lean ====
section
/-! DEFINITION. The step of the machine: the host's next event is performed. The block fetches nothing (10_state.md R13), so the
next command is the next word the host writes to `CMD` (assumption log 1). -/

namespace Sys2Proof.Machine

/-- One step: the block performs the host's next event completely (20_memory.md R46). -/
def step (s : State) : Host.Outcome State Fault Refusal := performNext s

/-- `s` with the write of the command word `w` to `CMD` as the host's next event, so that `step` runs exactly that command. -/
def State.withFetchWord (s : State) (nbits w : Nat) : State :=
  s.withCommand (BitVec.ofNat 32 (w % 2 ^ nbits))

end Sys2Proof.Machine
end

