-- ==== Sys2Proof/Safety.lean ====
section
/-! DEFINITION. What statements about the machine are said in: the invariant of 10_state.md R33, what a legal host access is
(20_memory.md R39), which state belongs to which engine, and short forms for one access at a window offset. -/

namespace Sys2Proof.Machine

/-- The inactive bytes of a pending-block cache are zero: `PB[ch][NACT[ch]..15] = 0` (R33 clause 1; `NACT[ch] ≤ 15` holds by the
width of the field). -/
def Hasher.padded (c : Hasher) : Prop := ∀ i, c.nact.toNat ≤ i → i < 16 → byteAt c.pb i = 0#8

/-- The invariant of 10_state.md R33, clause by clause. Clause 6, `KLEN ≠ 3` and `PHASE ≠ 3`, holds by the types of the two fields.
`par` in range (00_scope.md R5) stands with it, since clause 2 rests on it. -/
structure State.Inv (s : State) : Prop where
  /-- The parameters are in the ranges of 00_scope.md R5. -/
  params : s.par.wf = true
  /-- (1) Inactive cache bytes are zero. -/
  padding : ∀ ch, (s.chan ch).padded
  /-- (2) `TOT[ch] ≤ LIMIT_BYTES`. -/
  totals : ∀ ch, (s.chan ch).tot.toNat ≤ s.par.limitBytes
  /-- (3) `TBV = 1` implies `T = Table(H)`. -/
  tableValid : s.tbv = true → s.t = table s.h
  /-- (3) `TBV = 0` implies `H = 0^16` and every `T[v] = 0^16`. -/
  tableCleared : s.tbv = false → s.h = 0#128 ∧ s.t = Vector.replicate 256 0#128
  /-- (4) `KSV = 0` implies `KLEN = 0` and `RK = 0^240`. -/
  scheduleCleared : s.ksv = false → s.klen = .k128 ∧ s.rk = Vector.replicate 60 0#32
  /-- (5) `PHASE = AD` implies `NACT[1] = 0` and `TOT[1] = 0`. -/
  phaseAd : s.phase = .ad → s.msg.nact = 0#4 ∧ s.msg.tot = 0#64
  /-- (5) `PHASE = MSG` implies `NACT[0] = 0`. -/
  phaseMsg : s.phase = .msg → s.ad.nact = 0#4
  /-- (5) `PHASE = FINAL` implies `NACT[0] = NACT[1] = 0`. -/
  phaseFinal : s.phase = .final → s.ad.nact = 0#4 ∧ s.msg.nact = 0#4

/-- What `RK` holds when `KSV = 1`: the expansion of some key under `KLEN`, and zero words after it (10_state.md R16). -/
def State.ScheduleHeld (s : State) : Prop := s.ksv = true → ∃ k, s.rk = scheduleFile s.klen k

/-- A window offset that is mapped, by the ranges of the register map (20_memory.md R36, R40): a multiple of 4 from `0x00` to
`0x90` but for `0x08` and `0x0C`. -/
def mappedOffset (off : Nat) : Prop := off % 4 = 0 ∧ off ≤ 0x90 ∧ off ≠ 0x08 ∧ off ≠ 0x0C

/-- A legal event (20_memory.md R39): a reset, or a 32-bit access at a mapped offset of the window. -/
def HostEvent.legal (p : Params) : HostEvent → Prop
  | .rst => True
  | .read bits addr => bits = 32 ∧ p.base ≤ addr ∧ mappedOffset (addr - p.base)
  | .write bits addr _ => bits = 32 ∧ p.base ≤ addr ∧ mappedOffset (addr - p.base)

/-- From `s`, the host's 32-bit read at window offset `off` completes with the value `v` and changes nothing else. -/
def State.reads (s : State) (off : Nat) (v : Word) : Prop :=
  step { s with pending := .read 32 (s.par.base + off) :: s.pending } =
    .next { s with answers := v :: s.answers }

/-- From `s`, the host's 32-bit write of `v` at window offset `off` completes and leaves `t`. -/
def State.writes (s : State) (off : Nat) (v : Word) (t : State) : Prop :=
  step { s with pending := .write 32 (s.par.base + off) v :: s.pending } = .next t

/-- Every state element of the block at its value of the table of 10_state.md R34. -/
def State.atReset (s : State) : Prop :=
  s.key = 0#256 ∧ s.st = 0#128 ∧ (∀ i : Fin 60, s.rk[i] = 0#32) ∧ s.ksv = false ∧ s.klen = .k128 ∧ s.x = 0#128 ∧
    s.hk = 0#128 ∧ s.h = 0#128 ∧ (∀ v : Fin 256, s.t[v] = 0#128) ∧ s.tbv = false ∧ s.g = 0#128 ∧ s.ad.pb = 0#128 ∧
    s.msg.pb = 0#128 ∧ s.ad.nact = 0#4 ∧ s.msg.nact = 0#4 ∧ s.ad.tot = 0#64 ∧ s.msg.tot = 0#64 ∧ s.phase = .ad ∧
    s.fatal = false ∧ s.err = .ok ∧ s.tidx = 0#8

/-- The words whose `OP` is `op` and whose only other set bits lie in `mask` are the given commands; the others with that `OP` are
illegal, and writing one to `CMD` changes `ERR` to `ERR_OPCODE` and nothing else (30_encoding.md R53, R55). -/
def encodedAs (op : BitVec 8) (mask : Word) (command : Word → Instr) : Prop :=
  ∀ c : Word, c.extractLsb' 0 8 = op →
    (c &&& ~~~(0xFF#32 ||| mask) = 0#32 → decode c = .ok (command c)) ∧
    (c &&& ~~~(0xFF#32 ||| mask) ≠ 0#32 →
      decode c = .error .reservedBits ∧ ∀ s : State, s.writes 0x00 c { s with err := .opcode })

/-- A list of commands, one after the other. -/
def runCommands : List Instr → State → Result
  | [], s => .next s
  | i :: is, s =>
    match exec i s with
    | .next t => runCommands is t
    | .fault f => .fault f
    | .refused r => .refused r

/-- The same state of the AES engine: `KEY`, `ST`, `RK`, `KSV`, `KLEN`. -/
def sameAes (s t : State) : Prop :=
  t.key = s.key ∧ t.st = s.st ∧ t.rk = s.rk ∧ t.ksv = s.ksv ∧ t.klen = s.klen

/-- The same state of the POLYVAL engine: every other element of 10_state.md R11 but `ERR`. -/
def samePolyval (s t : State) : Prop :=
  t.x = s.x ∧ t.hk = s.hk ∧ t.h = s.h ∧ t.t = s.t ∧ t.tbv = s.tbv ∧ t.g = s.g ∧ t.ad = s.ad ∧ t.msg = s.msg ∧
    t.phase = s.phase ∧ t.fatal = s.fatal ∧ t.tidx = s.tidx

/-- The same outside the block: the parameters, the waiting events and the answers. -/
def sameOutside (s t : State) : Prop :=
  t.par = s.par ∧ t.pending = s.pending ∧ t.answers = s.answers

/-- The order of the phases, `AD`, `MSG`, `FINAL` (10_state.md R25). -/
def Phase.rank : Phase → Nat
  | .ad => 0
  | .msg => 1
  | .final => 2

/-- The commands of the AES engine (30_encoding.md R53: `0x01` to `0x06`). -/
def isAes : Instr → Bool
  | .kexp _ => true
  | .enc => true
  | .ark _ => true
  | .rnd _ => true
  | .rndl _ => true
  | .kclr => true
  | .nop => false
  | .pvkey => false
  | .pvinit => false
  | .pvupd _ _ => false
  | .pvmul => false
  | .pvfin => false
  | .pvclr => false

/-- The commands of the POLYVAL engine (30_encoding.md R53: `0x10` to `0x15`). -/
def isPolyval : Instr → Bool
  | .pvkey => true
  | .pvinit => true
  | .pvupd _ _ => true
  | .pvmul => true
  | .pvfin => true
  | .pvclr => true
  | .nop => false
  | .kexp _ => false
  | .enc => false
  | .ark _ => false
  | .rnd _ => false
  | .rndl _ => false
  | .kclr => false

end Sys2Proof.Machine
end

