-- ==== Sys2Proof/Certificates/Slice0/Obligations.lean ====
section
/-! DEFINITION. The statements about the block, for the provers: each names the rule of spec/ it formalises, and says what the
machine does in terms of `decode`, `exec`, `step` and the byte accessors of Machine/Bytes.lean. An equation
`exec i s = .next { s with … }` states the result, that the command completes, and its frame: every field that is not named keeps
its value. -/

open Sys2Proof Sys2Proof.Machine

/-! ### The command word (30_encoding.md) -/

/-- Decoding the word of a well-formed command gives the command back (R51 to R54). -/
def Obligations.DecodeOfEncodeIsIdentity : Prop :=
  ∀ i : Instr, i.wf = true → decode (encode i) = .ok i

/-- A legal word is the encoding of the one command it decodes to, so no two words are one command (R54, R55). -/
def Obligations.LegalWordIsItsEncoding : Prop :=
  ∀ (c : Word) (i : Instr), decode c = .ok i → i.wf = true ∧ encode i = c

/-- The decoder of R54: an unassigned opcode is illegal; of an assigned one, the word is its command with the operands
`kl = c[9:8]`, `r = c[11:8]`, `ch = c[8]`, `n = c[20:16]` unless a bit outside `OP` and the opcode's mask is set. An illegal word
executes as `ERR_OPCODE`; an operand out of range is no illegal encoding, and its command fails with its own code. -/
def Obligations.DecodeFollowsOpcodeMap : Prop :=
  (∀ c : Word, (c.extractLsb' 0 8).toNat ∉ [0x00, 0x01, 0x02, 0x03, 0x04, 0x05, 0x06] →
    (c.extractLsb' 0 8).toNat ∉ [0x10, 0x11, 0x12, 0x13, 0x14, 0x15] →
    decode c = .error .unassignedOpcode ∧ ∀ s : State, s.writes 0x00 c { s with err := .opcode }) ∧
  encodedAs 0x00#8 0x00000000#32 (fun _ => .nop) ∧
  encodedAs 0x01#8 0x00000300#32 (fun c => .kexp (c.extractLsb' 8 2).toNat) ∧
  encodedAs 0x02#8 0x00000000#32 (fun _ => .enc) ∧
  encodedAs 0x03#8 0x00000F00#32 (fun c => .ark (c.extractLsb' 8 4).toNat) ∧
  encodedAs 0x04#8 0x00000F00#32 (fun c => .rnd (c.extractLsb' 8 4).toNat) ∧
  encodedAs 0x05#8 0x00000F00#32 (fun c => .rndl (c.extractLsb' 8 4).toNat) ∧
  encodedAs 0x06#8 0x00000000#32 (fun _ => .kclr) ∧
  encodedAs 0x10#8 0x00000000#32 (fun _ => .pvkey) ∧
  encodedAs 0x11#8 0x00000000#32 (fun _ => .pvinit) ∧
  encodedAs 0x12#8 0x001F0100#32
    (fun c => .pvupd (if c.extractLsb' 8 1 = 1#1 then .msg else .ad) (c.extractLsb' 16 5).toNat) ∧
  encodedAs 0x13#8 0x00000000#32 (fun _ => .pvmul) ∧
  encodedAs 0x14#8 0x00000000#32 (fun _ => .pvfin) ∧
  encodedAs 0x15#8 0x00000000#32 (fun _ => .pvclr) ∧
  ∀ s : State,
    exec (.kexp 3) s = .next { s with err := .keylen } ∧
    (∀ r, s.ksv = true → 10 + 2 * s.klen.num < r → ∀ i ∈ [Instr.ark r, .rnd r, .rndl r],
      exec i s = .next { s with err := .round }) ∧
    ∀ ch n, 16 < n → exec (.pvupd ch n) s = .next { s with err := .len }

/-- A few words written out from R57 and from the table V1 of 95_test_vectors.md. -/
def Obligations.SampleWordsDecode : Prop :=
  decode 0x00000000#32 = .ok .nop ∧ decode 0x00000201#32 = .ok (.kexp 2) ∧
  decode 0x00000B04#32 = .ok (.rnd 11) ∧ decode 0x00000A05#32 = .ok (.rndl 10) ∧
  decode 0x00080112#32 = .ok (.pvupd .msg 8) ∧ decode 0x00110012#32 = .ok (.pvupd .ad 17) ∧
  decode 0x00000014#32 = .ok .pvfin ∧
  decode 0x80000000#32 = .error .reservedBits ∧ decode 0x00000C01#32 = .error .reservedBits ∧
  decode 0x0000F003#32 = .error .reservedBits ∧ decode 0x00200012#32 = .error .reservedBits ∧
  decode 0x00000007#32 = .error .unassignedOpcode ∧ decode 0x00000016#32 = .error .unassignedOpcode

/-! ### The step and the register window (20_memory.md, 40_command_dispatch.md) -/

/-- A step runs the decoded command: when the host's next event is the write of a word to `CMD`, the step is the meaning of its
command at the state with that event taken, and a word that is illegal changes `ERR` to `ERR_OPCODE` and nothing else (R59, R55). -/
def Obligations.StepRunsDecodedCommand : Prop :=
  ∀ (s : State) (c : Word) (rest : List HostEvent), s.pending = .write 32 s.par.base c :: rest →
    (∀ i, decode c = .ok i → step s = exec i { s with pending := rest }) ∧
    (∀ e, decode c = .error e → step s = .next { s with pending := rest, err := .opcode })

/-- A step takes exactly the oldest waiting event, keeps the parameters, and records at most one answer (R46; that nothing
changes when no event waits is the model's choice, log 1). -/
def Obligations.StepTakesOneEvent : Prop :=
  ∀ s t : State, step s = .next t →
    t.par = s.par ∧ t.pending = s.pending.tail ∧ (t.answers = s.answers ∨ ∃ v, t.answers = v :: s.answers) ∧
    (s.pending = [] → t = s)

/-- What each register returns to a legal read, which changes nothing but the host's answers (R41; the lanes of R37). -/
def Obligations.ReadsReturnTheRegisters : Prop :=
  ∀ s : State,
    s.reads 0x00 0#32 ∧ s.reads 0x04 (statusWord s) ∧
    (∀ j, j < 8 → s.reads (0x10 + 4 * j) 0#32) ∧ (∀ j, j < 4 → s.reads (0x50 + 4 * j) 0#32) ∧
    (∀ j, j < 4 → ∃ v, s.reads (0x30 + 4 * j) v ∧
      ∀ i, i < 4 → v.extractLsb' (8 * i) 8 = byteAt s.st (4 * j + i)) ∧
    (∀ j, j < 4 → ∃ v, s.reads (0x40 + 4 * j) v ∧
      ∀ i, i < 4 → v.extractLsb' (8 * i) 8 = byteAt s.x (4 * j + i)) ∧
    (∀ j, j < 4 → ∃ v, s.reads (0x60 + 4 * j) v ∧
      ∀ i, i < 4 → v.extractLsb' (8 * i) 8 = byteAt s.g (15 - (4 * j + i))) ∧
    (∃ lo hi, s.reads 0x70 lo ∧ s.reads 0x74 hi ∧
      lo.toNat = s.ad.tot.toNat % 2 ^ 32 ∧ hi.toNat = s.ad.tot.toNat / 2 ^ 32) ∧
    (∃ lo hi, s.reads 0x78 lo ∧ s.reads 0x7C hi ∧
      lo.toNat = s.msg.tot.toNat % 2 ^ 32 ∧ hi.toNat = s.msg.tot.toNat / 2 ^ 32) ∧
    (∃ v, s.reads 0x80 v ∧ v.toNat = s.tidx.toNat) ∧
    (∀ j, j < 4 → ∃ v, s.reads (0x84 + 4 * j) v ∧
      ∀ i, i < 4 → v.extractLsb' (8 * i) 8 = byteAt (s.t[s.tidx.toNat]'s.tidx.isLt) (4 * j + i))

/-- What a legal write does to each register: a data register takes exactly the four bytes of its lane, `TIDX` takes bits 7:0, a
read-only register is not changed, and a write of `CMD` executes its word (R42). -/
def Obligations.WritesChangeTheNamedBytes : Prop :=
  ∀ (s : State) (v : Word),
    (∀ i t, decode v = .ok i → exec i s = .next t → s.writes 0x00 v t) ∧
    (∀ e, decode v = .error e → s.writes 0x00 v { s with err := .opcode }) ∧
    (∀ j, j < 8 → ∃ k, s.writes (0x10 + 4 * j) v { s with key := k } ∧
      ∀ i, i < 32 → keyByteAt k i = if i / 4 = j then v.extractLsb' (8 * (i % 4)) 8 else keyByteAt s.key i) ∧
    (∀ j, j < 4 → ∃ b, s.writes (0x30 + 4 * j) v { s with st := b } ∧
      ∀ i, i < 16 → byteAt b i = if i / 4 = j then v.extractLsb' (8 * (i % 4)) 8 else byteAt s.st i) ∧
    (∀ j, j < 4 → ∃ b, s.writes (0x40 + 4 * j) v { s with x := b } ∧
      ∀ i, i < 16 → byteAt b i = if i / 4 = j then v.extractLsb' (8 * (i % 4)) 8 else byteAt s.x i) ∧
    (∀ j, j < 4 → ∃ b, s.writes (0x50 + 4 * j) v { s with hk := b } ∧
      ∀ i, i < 16 → byteAt b i = if i / 4 = j then v.extractLsb' (8 * (i % 4)) 8 else byteAt s.hk i) ∧
    (∃ i, s.writes 0x80 v { s with tidx := i } ∧ i.toNat = v.toNat % 256) ∧
    s.writes 0x04 v s ∧ (∀ j, j < 8 → s.writes (0x60 + 4 * j) v s) ∧ (∀ j, j < 4 → s.writes (0x84 + 4 * j) v s)

/-- An access to the window that is not 32 bits wide, not aligned or at a reserved offset is a bus error, read or write, and a
legal one is none (R39, R40). -/
def Obligations.BusErrorExactlyOnIllegalAccess : Prop :=
  ∀ (s : State) (bits off : Nat) (v : Word), off < 256 →
    (¬(bits = 32 ∧ mappedOffset off) →
      step { s with pending := .read bits (s.par.base + off) :: s.pending } = .fault (.busError off) ∧
      step { s with pending := .write bits (s.par.base + off) v :: s.pending } = .fault (.busError off)) ∧
    (bits = 32 ∧ mappedOffset off →
      (∃ t, step { s with pending := .read bits (s.par.base + off) :: s.pending } = .next t) ∧
      (∃ t, step { s with pending := .write bits (s.par.base + off) v :: s.pending } = .next t))

/-- A host that makes only legal accesses never meets a fault or a refusal, whatever it writes to `CMD` (R103, R39). -/
def Obligations.LegalHostNeverStops : Prop :=
  ∀ (k : Nat) (s : State), (∀ e ∈ s.pending, e.legal s.par) → ∃ t, core.run k s = .next t

/-- `ST`, `X` and `TIDX` read back what was written, and a write of one lane leaves what the other lanes read (R41, R42). -/
def Obligations.WrittenRegistersReadBack : Prop :=
  ∀ (s : State) (v : Word) (j : Nat), j < 4 →
    (∃ t, s.writes (0x30 + 4 * j) v t ∧ t.reads (0x30 + 4 * j) v ∧
      ∀ k w, k < 4 → k ≠ j → s.reads (0x30 + 4 * k) w → t.reads (0x30 + 4 * k) w) ∧
    (∃ t, s.writes (0x40 + 4 * j) v t ∧ t.reads (0x40 + 4 * j) v ∧
      ∀ k w, k < 4 → k ≠ j → s.reads (0x40 + 4 * k) w → t.reads (0x40 + 4 * k) w) ∧
    (∃ t, s.writes 0x80 v t ∧ t.reads 0x80 (v &&& 0xFF#32))

/-- No read of the window learns `KEY`, `HK`, `RK`, `H` or `PB`: two machines that differ in these alone answer every read alike
(R115, R41). -/
def Obligations.SecretsCannotBeReadBack : Prop :=
  ∀ (s : State) (key : KeyStr) (hk h pb0 pb1 : Block) (rk : Vector Word 60) (off : Nat) (v : Word),
    s.reads off v →
    { s with key := key, hk := hk, h := h, rk := rk, ad := { s.ad with pb := pb0 },
             msg := { s.msg with pb := pb1 } : State }.reads off v

/-! ### The status word and the error codes (10_state.md R28, 60_exceptions.md R104) -/

/-- The layout of `STATUS` (R28), its reserved bits, that a write of it changes nothing, and that it reads as 0 after reset. -/
def Obligations.StatusWordLayout : Prop :=
  ∀ (s : State) (v : Word),
    s.reads 0x04 (statusWord s) ∧ s.writes 0x04 v s ∧
    (statusWord s).extractLsb' 0 4 = s.err.code ∧
    (statusWord s).getLsbD 4 = s.ksv ∧ (statusWord s).getLsbD 5 = s.tbv ∧
    (statusWord s).extractLsb' 6 2 = (match s.phase with | .ad => 0#2 | .msg => 1#2 | .final => 2#2) ∧
    (statusWord s).getLsbD 8 = s.fatal ∧
    (statusWord s).extractLsb' 9 2 = (match s.klen with | .k128 => 0#2 | .k192 => 1#2 | .k256 => 2#2) ∧
    (statusWord s).extractLsb' 11 5 = 0#5 ∧ (statusWord s).extractLsb' 16 4 = s.ad.nact ∧
    (statusWord s).extractLsb' 20 4 = s.msg.nact ∧ (statusWord s).extractLsb' 24 8 = 0#8 ∧
    State.reset.reads 0x04 0#32

/-- The numbers of the error codes; no other number is ever shown in `STATUS` (R104). -/
def Obligations.ErrorCodesAreZeroToNine : Prop :=
  ErrCode.code .ok = 0#4 ∧ ErrCode.code .opcode = 1#4 ∧ ErrCode.code .keylen = 2#4 ∧ ErrCode.code .nokey = 3#4 ∧
  ErrCode.code .round = 4#4 ∧ ErrCode.code .notable = 5#4 ∧ ErrCode.code .order = 6#4 ∧ ErrCode.code .len = 7#4 ∧
  ErrCode.code .limit = 8#4 ∧ ErrCode.code .fatal = 9#4 ∧
  ∀ s : State, ((statusWord s).extractLsb' 0 4).toNat ≤ 9

/-! ### Reset (10_state.md R34, 70_reset_and_hazards.md R121, R122) -/

/-- The reset state has the values of the table of R34. -/
def Obligations.ResetStateHasResetValues : Prop := State.reset.atReset

/-- A reset sets every state element to its reset value in one step, from every state; what is outside the block is kept
(R121). -/
def Obligations.ResetInputRestoresResetValues : Prop :=
  ∀ (s : State) (rest : List HostEvent), s.pending = .rst :: rest →
    ∃ t, step s = .next t ∧ t.atReset ∧ t.par = s.par ∧ t.pending = rest ∧ t.answers = s.answers

/-- `KCLR` then `PVCLR` leaves the state that a reset leaves, from every state (R122). -/
def Obligations.ZeroizingBothEnginesIsReset : Prop :=
  ∀ s : State, ∃ t u, exec .kclr s = .next t ∧ exec .pvclr t = .next u ∧ u.atReset ∧ sameOutside s u

/-! ### Failing commands (40_command_dispatch.md R61, 60_exceptions.md R107, R112) -/

/-- A command that ends with an error changes `ERR`, and `FATAL` exactly for `ERR_LIMIT`, and nothing else; an illegal word is such
a command (R61, R59). -/
def Obligations.FailingCommandChangesOnlyErr : Prop :=
  (∀ (i : Instr) (s t : State), exec i s = .next t → t.err ≠ .ok →
    (t.err ≠ .limit → t = { s with err := t.err }) ∧
    (t.err = .limit → t = { s with err := .limit, fatal := true })) ∧
  ∀ (c : Word) (e : DecodeError) (s : State), decode c = .error e → s.writes 0x00 c { s with err := .opcode }

/-- Every command answers a next state, with the error code that the order of checks of R107 gives; decoding comes first. -/
def Obligations.ErrorPriorityFollowsCheckOrder : Prop :=
  ∀ s : State,
    (∀ c e, decode c = .error e → s.writes 0x00 c { s with err := .opcode }) ∧
    (∀ c i t, decode c = .ok i → exec i s = .next t → s.writes 0x00 c t) ∧
    (∀ i ∈ [Instr.nop, .kclr, .pvkey, .pvinit, .pvclr], ∃ t, exec i s = .next t ∧ t.err = .ok) ∧
    (∀ kl, kl < 4 → ∃ t, exec (.kexp kl) s = .next t ∧ t.err = if kl = 3 then .keylen else .ok) ∧
    (∃ t, exec .enc s = .next t ∧ t.err = if s.ksv = false then .nokey else .ok) ∧
    (∀ r, ∀ i ∈ [Instr.ark r, .rnd r, .rndl r], ∃ t, exec i s = .next t ∧
      t.err = if s.ksv = false then .nokey else if 10 + 2 * s.klen.num < r then .round else .ok) ∧
    (∀ ch n, ∃ t, exec (.pvupd ch n) s = .next t ∧
      t.err = if 16 < n then .len else if s.tbv = false then .notable else if s.fatal = true then .fatal
        else if s.phase = .final then .order else if ch = .ad ∧ s.phase = .msg then .order
        else if s.par.limitBytes < (s.chan ch).tot.toNat + n then .limit else .ok) ∧
    (∃ t, exec .pvmul s = .next t ∧ t.err = if s.tbv = false then .notable else .ok) ∧
    (∃ t, exec .pvfin s = .next t ∧
      t.err = if s.tbv = false then .notable else if s.fatal = true then .fatal
        else if s.phase = .final then .order else .ok)

/-- `FATAL` is sticky (R26, R112): while it is set, `PVUPD` and `PVFIN` that would pass their earlier checks fail with
`ERR_FATAL`; only `PVINIT` and `PVCLR` clear it; only a `PVUPD` that fails with `ERR_LIMIT` sets it. -/
def Obligations.FatalStaysUntilCleared : Prop :=
  (∀ (s : State) (ch : Channel) (n : Nat), s.fatal = true → s.tbv = true → n ≤ 16 →
    exec (.pvupd ch n) s = .next { s with err := .fatal } ∧ exec .pvfin s = .next { s with err := .fatal }) ∧
  (∀ (i : Instr) (s t : State), exec i s = .next t → s.fatal = true → i ≠ .pvinit → i ≠ .pvclr → t.fatal = true) ∧
  (∀ (i : Instr) (s t : State), exec i s = .next t → s.fatal = false → t.fatal = true →
    t.err = .limit ∧ ∃ ch n, i = .pvupd ch n)

/-! ### `NOP` and the AES engine (40_command_dispatch.md, 41 to 43) -/

/-- `NOP` sets `ERR` to `OK` and changes nothing else, `FATAL` included; its only encoding is the zero word (R64). -/
def Obligations.NopOnlyClearsErr : Prop :=
  (∀ s : State, exec .nop s = .next { s with err := .ok }) ∧
  (∀ c : Word, decode c = .ok .nop ↔ c = 0#32) ∧
  (∀ (c : Word) (s : State), c.extractLsb' 0 8 = 0#8 → c ≠ 0#32 →
    decode c = .error .reservedBits ∧ s.writes 0x00 c { s with err := .opcode })

/-- Byte arithmetic in GF(2^8): doubling, and the product as the sum over the set bits of the second factor (R66). -/
def Obligations.ByteProductIsSumOfDoublings : Prop :=
  (∀ a : Byte, (xtime a).toNat = (2 * a.toNat ^^^ (if 128 ≤ a.toNat then 0x1B else 0)) % 256) ∧
  (∀ a b : Byte, gfMul8 a b =
    (if b.getLsbD 0 then a else 0#8) ^^^ (if b.getLsbD 1 then xtime a else 0#8) ^^^
    (if b.getLsbD 2 then xtime (xtime a) else 0#8) ^^^ (if b.getLsbD 3 then xtime (xtime (xtime a)) else 0#8) ^^^
    (if b.getLsbD 4 then xtime (xtime (xtime (xtime a))) else 0#8) ^^^
    (if b.getLsbD 5 then xtime (xtime (xtime (xtime (xtime a)))) else 0#8) ^^^
    (if b.getLsbD 6 then xtime (xtime (xtime (xtime (xtime (xtime a))))) else 0#8) ^^^
    (if b.getLsbD 7 then xtime (xtime (xtime (xtime (xtime (xtime (xtime a)))))) else 0#8)) ∧
  xtime 0x57#8 = 0xAE#8 ∧ xtime 0x80#8 = 0x1B#8 ∧ gfMul8 0x57#8 0x83#8 = 0xC1#8 ∧ gfMul8 0x57#8 0x13#8 = 0xFE#8

/-- The S-box table is the affine image of the inverse in GF(2^8), and its two check values (R67). -/
def Obligations.SboxIsAffineOfInverse : Prop :=
  (∀ a : Byte, ∃ b : Byte, ((a = 0#8 ∧ b = 0#8) ∨ gfMul8 a b = 0x01#8) ∧
    sbox a = b ^^^ b.rotateLeft 1 ^^^ b.rotateLeft 2 ^^^ b.rotateLeft 3 ^^^ b.rotateLeft 4 ^^^ 0x63#8) ∧
  sbox 0x00#8 = 0x63#8 ∧ sbox 0x53#8 = 0xED#8

/-- The round transformations, byte by byte, and the two round functions (R68 to R72). -/
def Obligations.RoundTransformationsByByte : Prop :=
  ∀ s k : Block,
    (∀ i, i < 16 → byteAt (subBytes s) i = sbox (byteAt s i)) ∧
    (∀ r c, r < 4 → c < 4 → byteAt (shiftRows s) (r + 4 * c) = byteAt s (r + 4 * ((c + r) % 4))) ∧
    (∀ i, i < 16 →
      byteAt (shiftRows s) i = byteAt s ([0, 5, 10, 15, 4, 9, 14, 3, 8, 13, 2, 7, 12, 1, 6, 11].getD i 0)) ∧
    (∀ c, c < 4 →
      byteAt (mixColumns s) (4 * c) = gfMul8 0x02#8 (byteAt s (4 * c)) ^^^ gfMul8 0x03#8 (byteAt s (4 * c + 1)) ^^^
        byteAt s (4 * c + 2) ^^^ byteAt s (4 * c + 3) ∧
      byteAt (mixColumns s) (4 * c + 1) = byteAt s (4 * c) ^^^ gfMul8 0x02#8 (byteAt s (4 * c + 1)) ^^^
        gfMul8 0x03#8 (byteAt s (4 * c + 2)) ^^^ byteAt s (4 * c + 3) ∧
      byteAt (mixColumns s) (4 * c + 2) = byteAt s (4 * c) ^^^ byteAt s (4 * c + 1) ^^^
        gfMul8 0x02#8 (byteAt s (4 * c + 2)) ^^^ gfMul8 0x03#8 (byteAt s (4 * c + 3)) ∧
      byteAt (mixColumns s) (4 * c + 3) = gfMul8 0x03#8 (byteAt s (4 * c)) ^^^ byteAt s (4 * c + 1) ^^^
        byteAt s (4 * c + 2) ^^^ gfMul8 0x02#8 (byteAt s (4 * c + 3))) ∧
    (∀ i, i < 16 → byteAt (addRoundKey s k) i = byteAt s i ^^^ byteAt k i) ∧
    aesRound s k = addRoundKey (mixColumns (shiftRows (subBytes s))) k ∧
    finalRound s k = addRoundKey (shiftRows (subBytes s)) k

/-- On a state whose sixteen bytes are equal, a full round and a final round agree (R82, corner cases). -/
def Obligations.RoundsAgreeOnEqualBytes : Prop :=
  ∀ (s k : Block), (∀ i, i < 16 → byteAt s i = byteAt s 0) → aesRound s k = finalRound s k

/-- `Rcon`, `RotWord` and `SubWord` (R74); a word is its four bytes, byte 0 first. -/
def Obligations.ScheduleConstantsAndWordMaps : Prop :=
  (List.range 10).map (fun j => rcon (j + 1)) =
    [0x01#8, 0x02#8, 0x04#8, 0x08#8, 0x10#8, 0x20#8, 0x40#8, 0x80#8, 0x1B#8, 0x36#8] ∧
  ∀ a0 a1 a2 a3 : Byte,
    rotWord (a0 ++ a1 ++ a2 ++ a3) = a1 ++ a2 ++ a3 ++ a0 ∧
    subWord (a0 ++ a1 ++ a2 ++ a3) = sbox a0 ++ sbox a1 ++ sbox a2 ++ sbox a3

/-- `KEXP kl` with `kl` 0, 1, 2: it completes from every state, and `RK` then holds the words of the key, the words of the
recurrence of R75, and zero words after them; `KSV` and `KLEN` are set; nothing else changes (R75, R77). -/
def Obligations.KexpWritesTheExpandedKey : Prop :=
  ∀ (s : State) (kl : Nat) (k : KeyLen), (kl, k) ∈ [(0, KeyLen.k128), (1, KeyLen.k192), (2, KeyLen.k256)] →
    ∃ rk, exec (.kexp kl) s = .next { s with rk := rk, ksv := true, klen := k, err := .ok } ∧
      (∀ i b, i < 4 + 2 * kl → b < 4 → wordByteAt (rkWord rk i) b = keyByteAt s.key (4 * i + b)) ∧
      (∀ i, 4 + 2 * kl ≤ i → i < 4 * (10 + 2 * kl + 1) →
        rkWord rk i = rkWord rk (i - (4 + 2 * kl)) ^^^
          (if i % (4 + 2 * kl) = 0 then
            subWord (rotWord (rkWord rk (i - 1))) ^^^ (rcon (i / (4 + 2 * kl)) ++ 0#24)
          else if 4 + 2 * kl = 8 ∧ i % (4 + 2 * kl) = 4 then subWord (rkWord rk (i - 1))
          else rkWord rk (i - 1))) ∧
      (∀ i, 4 * (10 + 2 * kl + 1) ≤ i → i < 60 → rkWord rk i = 0#32)

/-- `KEXP` with `kl = 3` fails with `ERR_KEYLEN` and keeps the old schedule; which words are `KEXP` (R77, R73). -/
def Obligations.KexpRefusesInvalidLength : Prop :=
  (∀ s : State, exec (.kexp 3) s = .next { s with err := .keylen }) ∧
  encodedAs 0x01#8 0x00000300#32 (fun c => .kexp (c.extractLsb' 8 2).toNat)

/-- Key bytes beyond the length of the key are ignored: keys that agree on the first `4·Nk` bytes give one schedule (R14, R77). -/
def Obligations.ScheduleIgnoresUnusedKeyBytes : Prop :=
  ∀ (kl : KeyLen) (k k' : KeyStr), (∀ i, i < 4 * (4 + 2 * kl.num) → keyByteAt k i = keyByteAt k' i) →
    scheduleFile kl k = scheduleFile kl k'

/-- `KCLR` zeroizes the AES engine and touches nothing of the POLYVAL engine; after it, and after any commands but `KEXP` that
follow, `ENC`, and `ARK`, `RND` and `RNDL` with every `r`, fail with `ERR_NOKEY`; its only encoding is `0x00000006` (R78). -/
def Obligations.KclrZeroizesAesEngine : Prop :=
  (∀ s : State, exec .kclr s =
    .next { s with key := 0#256, rk := Vector.replicate 60 0#32, st := 0#128, ksv := false, klen := .k128,
                   err := .ok }) ∧
  (∀ (s t u : State) (is : List Instr), exec .kclr s = .next t → (∀ kl, .kexp kl ∉ is) → runCommands is t = .next u →
    ∀ r, ∀ i ∈ [Instr.enc, .ark r, .rnd r, .rndl r], exec i u = .next { u with err := .nokey }) ∧
  encodedAs 0x06#8 0x00000000#32 (fun _ => .kclr)

/-- Round key `r` is the four words `w[4r]` to `w[4r+3]`, sixteen bytes in order (R76). -/
def Obligations.RoundKeyIsFourWords : Prop :=
  ∀ (rk : Vector Word 60) (r i : Nat), r ≤ 14 → i < 16 →
    byteAt (roundKey rk r) i = wordByteAt (rk[4 * r + i / 4]?.getD 0#32) (i % 4)

/-- `Cipher` is the initial key addition, `Nr − 1` rounds with the round keys `1` to `Nr − 1`, and the final round (R79). -/
def Obligations.CipherIsItsRounds : Prop :=
  ∀ (rk : Vector Word 60) (nr : Nat) (s : Block), 1 ≤ nr →
    ∃ b : Nat → Block, b 0 = addRoundKey s (roundKey rk 0) ∧
      (∀ r, 1 ≤ r → r ≤ nr - 1 → b r = aesRound (b (r - 1)) (roundKey rk r)) ∧
      cipher rk nr s = finalRound (b (nr - 1)) (roundKey rk nr)

/-- `ENC` encrypts `ST` in place under the schedule, changing nothing else but `ERR`; without a schedule it fails (R80). -/
def Obligations.EncEncryptsTheStateBlock : Prop :=
  (∀ s : State, s.ksv = true →
    exec .enc s = .next { s with st := cipher s.rk (10 + 2 * s.klen.num) s.st, err := .ok }) ∧
  (∀ s : State, s.ksv = false → exec .enc s = .next { s with err := .nokey }) ∧
  encodedAs 0x02#8 0x00000000#32 (fun _ => .enc)

/-- `ARK r`, `RND r` and `RNDL r`: with a schedule and `r ≤ Nr` they replace `ST`, and nothing else but `ERR` changes;
`ERR_NOKEY` comes before `ERR_ROUND`; `ARK r` twice restores the state (R81, R82, R83). -/
def Obligations.RoundCommandsUseRoundKey : Prop :=
  (∀ (s : State) (r : Nat), s.ksv = true → r ≤ 10 + 2 * s.klen.num →
    exec (.ark r) s = .next { s with st := addRoundKey s.st (roundKey s.rk r), err := .ok } ∧
    exec (.rnd r) s = .next { s with st := aesRound s.st (roundKey s.rk r), err := .ok } ∧
    exec (.rndl r) s = .next { s with st := finalRound s.st (roundKey s.rk r), err := .ok }) ∧
  (∀ (s : State) (r : Nat), ∀ i ∈ [Instr.ark r, .rnd r, .rndl r],
    (s.ksv = false → exec i s = .next { s with err := .nokey }) ∧
    (s.ksv = true → 10 + 2 * s.klen.num < r → exec i s = .next { s with err := .round })) ∧
  (∀ (s : State) (r : Nat), s.ksv = true → r ≤ 10 + 2 * s.klen.num →
    ∃ t, exec (.ark r) s = .next t ∧ exec (.ark r) t = .next { s with err := .ok }) ∧
  encodedAs 0x03#8 0x00000F00#32 (fun c => .ark (c.extractLsb' 8 4).toNat) ∧
  encodedAs 0x04#8 0x00000F00#32 (fun c => .rnd (c.extractLsb' 8 4).toNat) ∧
  encodedAs 0x05#8 0x00000F00#32 (fun c => .rndl (c.extractLsb' 8 4).toNat)

/-- With a schedule, `ARK 0; RND 1; …; RND Nr−1; RNDL Nr` leaves the same state as `ENC`, every element of it (R84). -/
def Obligations.EncEqualsItsRoundCommands : Prop :=
  ∀ s : State, s.ksv = true →
    runCommands
        (.ark 0 :: (List.range (10 + 2 * s.klen.num - 1)).map (fun r => .rnd (r + 1)) ++
          [.rndl (10 + 2 * s.klen.num)]) s =
      exec .enc s

/-- `KEY` written after `KEXP` has no effect on the cipher commands: they use the copy in `RK` (R127, R14). -/
def Obligations.CipherCommandsIgnoreKeyRegister : Prop :=
  ∀ (s t : State) (k : KeyStr) (r : Nat), ∀ i ∈ [Instr.enc, .ark r, .rnd r, .rndl r],
    exec i s = .next t → exec i { s with key := k } = .next { t with key := k }

/-! ### GF(2^128) and the table (44_polyval_field.md) -/

/-- `mulX` multiplies by `x`, coefficient by coefficient: `x^127` re-enters as `1 + x + x^2 + x^7` (R85, R86). -/
def Obligations.MulXMultipliesByX : Prop :=
  ∀ (b : Block) (k : Nat), k < 128 →
    (mulX b).getLsbD (127 - k) =
      ((decide (0 < k) && b.getLsbD (128 - k)) ^^ (decide (k ∈ [0, 1, 2, 7]) && b.getLsbD 0))

/-- Halving and doubling undo each other (R87). -/
def Obligations.HalvingUndoesDoubling : Prop :=
  ∀ b : Block, divX (mulX b) = b ∧ mulX (divX b) = b

/-- The field product has the unit `ONE`, zero, and distributes over `⊕` on both sides; multiplying by `x` on the right is
doubling (R88). -/
def Obligations.ProductIsBilinear : Prop :=
  ∀ a b c : Block,
    gfmul polyOne b = b ∧ gfmul 0#128 b = 0#128 ∧ gfmul a 0#128 = 0#128 ∧
    gfmul (a ^^^ b) c = gfmul a c ^^^ gfmul b c ∧ gfmul a (b ^^^ c) = gfmul a b ^^^ gfmul a c ∧
    gfmul a (mulX b) = mulX (gfmul a b)

/-- The field product is commutative and associative (R88). -/
def Obligations.ProductIsCommutativeAndAssociative : Prop :=
  ∀ a b c : Block, gfmul a b = gfmul b a ∧ gfmul (gfmul a b) c = gfmul a (gfmul b c)

/-- `Table(H)` satisfies the source's recurrence (R90). -/
def Obligations.TableFollowsRecurrence : Prop :=
  ∀ h : Block,
    (table h)[0] = 0#128 ∧ (table h)[1] = mulX (mulX (mulX (mulX (mulX (mulX (mulX h)))))) ∧
    ∀ (n : Nat) (hn : n + 1 < 256), 2 ≤ n → n % 2 = 0 →
      (table h)[n] = divX ((table h)[n / 2]) ∧ (table h)[n + 1] = (table h)[n] ^^^ (table h)[1]

/-- The meaning of the table: entry `v` is the product of `v || 0^15` and `H`, and entries add (R91). -/
def Obligations.TableEntryIsProduct : Prop :=
  ∀ (h : Block),
    (∀ v : Byte, (table h)[v.toNat]'v.isLt = gfmul (v ++ 0#120) h) ∧
    (table h)[0x80] = h ∧ (table h)[0x01] = mulXPow 7 h ∧ (table h)[0x40] = mulX h ∧
    (∀ u v : Byte, (table h)[(u ^^^ v).toNat]'(u ^^^ v).isLt =
      (table h)[u.toNat]'u.isLt ^^^ (table h)[v.toNat]'v.isLt)

/-- Multiplying byte by byte through the table is the field product: the use the table was built for (R92). -/
def Obligations.TableMultiplicationIsProduct : Prop :=
  ∀ (h a : Block),
    (List.range 15).reverse.foldl
        (fun z i => mulXPow 8 z ^^^ (table h)[(byteAt a i).toNat]'(byteAt a i).isLt)
        ((table h)[(byteAt a 15).toNat]'(byteAt a 15).isLt) =
      gfmul a h

/-- The lengths block: in GHASH order the message bit-length and then the associated-data bit-length, each big-endian, and in
POLYVAL order both little-endian, associated data first (R94). -/
def Obligations.LengthsBlockHoldsBothBitLengths : Prop :=
  ∀ a m : BitVec 64, a.toNat < 2 ^ 61 → m.toNat < 2 ^ 61 →
    (∀ i, i < 8 →
      (byteAt (lengthsBlock a m) i).toNat = 8 * m.toNat / 256 ^ (7 - i) % 256 ∧
      (byteAt (lengthsBlock a m) (8 + i)).toNat = 8 * a.toNat / 256 ^ (7 - i) % 256 ∧
      (byteAt (rev (lengthsBlock a m)) i).toNat = 8 * a.toNat / 256 ^ i % 256 ∧
      (byteAt (rev (lengthsBlock a m)) (8 + i)).toNat = 8 * m.toNat / 256 ^ i % 256)

/-! ### The POLYVAL engine (45_polyval_engine.md) -/

/-- `PVKEY` derives `H = mulX(rev(HK))` and its table and sets `TBV`; nothing else but `ERR` changes. A zero hash key is legal: it
gives a zero `H` and an all-zero table, and every step then leaves `G = 0` (R97, R89). -/
def Obligations.PvkeyDerivesHashKeyAndTable : Prop :=
  (∀ s : State, exec .pvkey s =
    .next { s with h := mulX (rev s.hk), t := table (mulX (rev s.hk)), tbv := true, err := .ok }) ∧
  (∀ s : State, s.hk = 0#128 →
    ∃ t, exec .pvkey s = .next t ∧ t.h = 0#128 ∧ (∀ v : Fin 256, t.t[v] = 0#128) ∧
      ∀ g x, polyStep t.h g x = 0#128) ∧
  encodedAs 0x10#8 0x00000000#32 (fun _ => .pvkey)

/-- `PVINIT` starts a new hash and keeps `H`, `T`, `TBV`, `HK`, `X` and everything else (R98). -/
def Obligations.PvinitStartsNewHash : Prop :=
  (∀ s : State, exec .pvinit s =
    .next { s with
      g := 0#128
      ad := { pb := 0#128, nact := 0#4, tot := 0#64 }
      msg := { pb := 0#128, nact := 0#4, tot := 0#64 }
      phase := .ad
      fatal := false
      err := .ok }) ∧
  encodedAs 0x11#8 0x00000000#32 (fun _ => .pvinit)

/-- `PVMUL` steps `G` with all of `X`, `G <- gfmul(G ⊕ rev(X), H)`, whatever the phase, and changes nothing else but `ERR`;
without a table it fails (R100, R93). -/
def Obligations.PvmulStepsAccumulator : Prop :=
  (∀ s : State, s.tbv = true → exec .pvmul s = .next { s with g := gfmul (s.g ^^^ rev s.x) s.h, err := .ok }) ∧
  (∀ s : State, s.tbv = false → exec .pvmul s = .next { s with err := .notable }) ∧
  encodedAs 0x13#8 0x00000000#32 (fun _ => .pvmul)

/-- `PVUPD` on a channel that is open: with `a` bytes cached, the first `n` bytes of `X` follow them; sixteen bytes together are
one step, and what is left stays cached, padded with zeros; `TOT` grows by `n`; nothing else but `ERR` changes (R99, R96). The
premise on the cache is clause 1 of R33. -/
def Obligations.PvupdAbsorbsBytesInOrder : Prop :=
  ∀ (s : State) (ch : Channel) (n : Nat),
    n ≤ 16 → s.tbv = true → s.fatal = false → s.phase = (match ch with | .ad => .ad | .msg => .msg) →
    (s.chan ch).tot.toNat + n ≤ s.par.limitBytes → (s.chan ch).padded →
    let a := (s.chan ch).nact.toNat
    let tot := (s.chan ch).tot + BitVec.ofNat 64 n
    (a + n < 16 →
      exec (.pvupd ch n) s = .next
        { s.setChan ch
            { pb := blockOf fun i =>
                if i < a then byteAt (s.chan ch).pb i else if i < a + n then byteAt s.x (i - a) else 0#8
              nact := BitVec.ofNat 4 (a + n)
              tot := tot } with err := .ok }) ∧
    (16 ≤ a + n →
      exec (.pvupd ch n) s = .next
        { s.setChan ch
            { pb := blockOf fun i => if i < a + n - 16 then byteAt s.x (i + 16 - a) else 0#8
              nact := BitVec.ofNat 4 (a + n - 16)
              tot := tot } with
          g := polyStep s.h s.g
            (blockOf fun i => if i < a then byteAt (s.chan ch).pb i else byteAt s.x (i - a))
          err := .ok })

/-- The first message data completes the associated data: `PVUPD MSG, n` in phase `AD` is `PVUPD MSG, n` from the state in which
the pending associated data, if any, has been stepped and the phase is `MSG`; it is taken even for `n = 0` (R99). -/
def Obligations.FirstMessageDataFlushesAssociatedData : Prop :=
  ∀ (s : State) (n : Nat), n ≤ 16 → s.tbv = true → s.fatal = false → s.phase = .ad →
    s.msg.tot.toNat + n ≤ s.par.limitBytes →
    (s.ad.nact = 0#4 → exec (.pvupd .msg n) s = exec (.pvupd .msg n) { s with phase := .msg }) ∧
    (s.ad.nact ≠ 0#4 → exec (.pvupd .msg n) s =
      exec (.pvupd .msg n)
        { s with
          g := gfmul (s.g ^^^ rev s.ad.pb) s.h
          ad := { s.ad with pb := 0#128, nact := 0#4 }
          phase := .msg }) ∧
    ∃ t, exec (.pvupd .msg n) s = .next t ∧ t.err = .ok ∧ t.phase = .msg ∧ t.ad.nact = 0#4 ∧
      t.msg.tot = s.msg.tot + BitVec.ofNat 64 n

/-- Splitting a byte string over two `PVUPD`s of one channel leaves the same state as absorbing it at once (R99, corner cases);
the host writes the rest of the bytes to `X` before the second. -/
def Obligations.SplitUpdatesAbsorbTheSame : Prop :=
  ∀ (s t : State) (ch : Channel) (n m : Nat), n + m ≤ 16 →
    exec (.pvupd ch (n + m)) s = .next t → t.err = .ok →
    ∃ u, exec (.pvupd ch n) s = .next u ∧ u.err = .ok ∧
      exec (.pvupd ch m) { u with x := s.x <<< (8 * n) } = .next { t with x := s.x <<< (8 * n) }

/-- `PVFIN` completes both channels, associated data first, steps the lengths block and makes the hash final; `TOT` is kept; when
its checks do not hold it fails. With no data at all the accumulator ends as zero (R101). -/
def Obligations.PvfinCompletesTheHash : Prop :=
  (∀ s : State, s.tbv = true → s.fatal = false → s.phase ≠ .final →
    let g1 := if s.ad.nact = 0#4 then s.g else gfmul (s.g ^^^ rev s.ad.pb) s.h
    let g2 := if s.msg.nact = 0#4 then g1 else gfmul (g1 ^^^ rev s.msg.pb) s.h
    let lengths : Block := BitVec.ofNat 64 (8 * s.msg.tot.toNat) ++ BitVec.ofNat 64 (8 * s.ad.tot.toNat)
    exec .pvfin s = .next
      { s with
        g := gfmul (g2 ^^^ lengths) s.h
        ad := { s.ad with pb := if s.ad.nact = 0#4 then s.ad.pb else 0#128, nact := 0#4 }
        msg := { s.msg with pb := if s.msg.nact = 0#4 then s.msg.pb else 0#128, nact := 0#4 }
        phase := .final
        err := .ok }) ∧
  (∀ s : State, s.tbv = true →
    ∃ t u, exec .pvinit s = .next t ∧ exec .pvfin t = .next u ∧ u.g = 0#128 ∧ u.phase = .final ∧ u.err = .ok) ∧
  (∀ s : State, s.tbv = false → exec .pvfin s = .next { s with err := .notable }) ∧
  (∀ s : State, s.tbv = true → s.fatal = true → exec .pvfin s = .next { s with err := .fatal }) ∧
  (∀ s : State, s.tbv = true → s.fatal = false → s.phase = .final → exec .pvfin s = .next { s with err := .order }) ∧
  encodedAs 0x14#8 0x00000000#32 (fun _ => .pvfin)

/-- `PVCLR` zeroizes the POLYVAL engine and touches nothing of the AES engine; after it, and after any commands but `PVKEY` that
follow, `PVUPD` on either channel with every `n ≤ 16`, `PVMUL` and `PVFIN` fail with `ERR_NOTABLE`; its only encoding is
`0x00000015` (R102). -/
def Obligations.PvclrZeroizesPolyvalEngine : Prop :=
  (∀ s : State, exec .pvclr s =
    .next { s with
      hk := 0#128
      x := 0#128
      h := 0#128
      t := Vector.replicate 256 0#128
      tbv := false
      g := 0#128
      ad := { pb := 0#128, nact := 0#4, tot := 0#64 }
      msg := { pb := 0#128, nact := 0#4, tot := 0#64 }
      phase := .ad
      fatal := false
      tidx := 0#8
      err := .ok }) ∧
  (∀ (s t u : State) (is : List Instr), exec .pvclr s = .next t → .pvkey ∉ is → runCommands is t = .next u →
    ∀ ch n, n ≤ 16 → ∀ i ∈ [Instr.pvupd ch n, .pvmul, .pvfin], exec i u = .next { u with err := .notable }) ∧
  encodedAs 0x15#8 0x00000000#32 (fun _ => .pvclr)

/-- `HK` written after `PVKEY` has no effect on hashing: the commands use the derived `H` (R128, R19). -/
def Obligations.HashingIgnoresHashKeyRegister : Prop :=
  ∀ (s t : State) (hk : Block) (ch : Channel) (n : Nat), ∀ i ∈ [Instr.pvupd ch n, .pvmul, .pvfin, .pvinit],
    exec i s = .next t → exec i { s with hk := hk } = .next { t with hk := hk }

/-! ### Rules over all commands and all steps -/

/-- The commands of one engine leave the other engine alone, and every command leaves what is outside the block alone (R78,
R102, R12, R53). -/
def Obligations.EnginesAreIndependent : Prop :=
  ∀ (i : Instr) (s t : State), exec i s = .next t →
    (isAes i = true → samePolyval s t) ∧ (isPolyval i = true → sameAes s t) ∧ sameOutside s t

/-- Which commands can change which registers: `KEY` only `KCLR`; `RK`, `KSV` and `KLEN` only `KEXP` and `KCLR`, and only `KEXP`
sets `KSV`; `X`, `HK` and `TIDX` only `PVCLR`; `H`, `T` and `TBV` only `PVKEY` and `PVCLR` (R12, R17, R18, R19, R21, R22). -/
def Obligations.RegistersChangedOnlyByTheirCommands : Prop :=
  ∀ (i : Instr) (s t : State), exec i s = .next t →
    (i ≠ .kclr → t.key = s.key) ∧
    ((∀ kl, i ≠ .kexp kl) → i ≠ .kclr → t.rk = s.rk ∧ t.ksv = s.ksv ∧ t.klen = s.klen) ∧
    (s.ksv = false → t.ksv = true → ∃ kl, i = .kexp kl) ∧
    (i ≠ .pvclr → t.x = s.x ∧ t.hk = s.hk ∧ t.tidx = s.tidx) ∧
    (i ≠ .pvkey → i ≠ .pvclr → t.h = s.h ∧ t.t = s.t ∧ t.tbv = s.tbv) ∧
    (s.tbv = false → t.tbv = true → i = .pvkey)

/-- `PHASE` moves only forward, and returns to `AD` only by `PVINIT`, `PVCLR` or a reset, in every step (R25). -/
def Obligations.PhaseMovesOnlyForward : Prop :=
  ∀ s t : State, step s = .next t →
    s.phase.rank ≤ t.phase.rank ∨
    (t.phase = .ad ∧ ∃ e rest, s.pending = e :: rest ∧
      (e = .rst ∨ e = .write 32 s.par.base 0x00000011#32 ∨ e = .write 32 s.par.base 0x00000015#32))

/-- The reset state satisfies the invariant of R33, and the one on the key schedule (R16). -/
def Obligations.InvariantHoldsAtReset : Prop := State.reset.Inv ∧ State.reset.ScheduleHeld

/-- Every step keeps the invariant of R33, from every state that has it. -/
def Obligations.InvariantKeptByEveryStep : Prop :=
  ∀ s t : State, s.Inv → step s = .next t → t.Inv

/-- Every step keeps it true that `RK` holds an expanded key whenever `KSV = 1`, with zero words after it (R16). -/
def Obligations.ScheduleKeptByEveryStep : Prop :=
  ∀ s t : State, s.ScheduleHeld → step s = .next t → t.ScheduleHeld
end

