-- ==== Sys2Proof/Laws/Bytes.lean ====
section
/-! SUPPORT. What the byte accessors of Machine/Bytes.lean do: a block is its sixteen bytes, and each operation is said byte by
byte, so that no later proof unfolds the concatenation. -/

namespace Sys2Proof.Machine

/-- A byte above the last byte of a string is a byte of what stands before the last. -/
theorem extract_append_high {n : Nat} (x : BitVec n) (y : Byte) (k : Nat) :
    (x ++ y).extractLsb' (8 * (k + 1)) 8 = x.extractLsb' (8 * k) 8 := by
  apply BitVec.eq_of_getLsbD_eq
  intro i hi
  have h : ¬ 8 * (k + 1) + i < 8 := by omega
  simp only [BitVec.getLsbD_extractLsb', BitVec.getLsbD_append, h, if_false]
  congr 2
  omega

/-- The last byte of a string. -/
theorem extract_append_low {n : Nat} (x : BitVec n) (y : Byte) :
    (x ++ y).extractLsb' (8 * 0) 8 = y := by
  apply BitVec.eq_of_getLsbD_eq
  intro i hi
  simp [BitVec.getLsbD_append, hi]

/-- A byte above the second of two strings is a byte of the first. -/
theorem extract_halves_high {n w : Nat} (x : BitVec n) (y : BitVec w) (k : Nat) :
    (x ++ y).extractLsb' (w + k) 8 = x.extractLsb' k 8 := by
  apply BitVec.eq_of_getLsbD_eq
  intro i hi
  have h : ¬ w + k + i < w := by omega
  simp only [BitVec.getLsbD_extractLsb', BitVec.getLsbD_append, h, if_false]
  congr 2
  omega

/-- A byte of the second of two strings. -/
theorem extract_halves_low {n w : Nat} (x : BitVec n) (y : BitVec w) {k : Nat} (hk : k + 8 ≤ w) :
    (x ++ y).extractLsb' k 8 = y.extractLsb' k 8 := by
  apply BitVec.eq_of_getLsbD_eq
  intro i hi
  have h : k + i < w := by omega
  simp only [BitVec.getLsbD_extractLsb', BitVec.getLsbD_append, h, if_true]

theorem byteAt_blockOf (f : Nat → Byte) {i : Nat} (hi : i < 16) : byteAt (blockOf f) i = f i := by
  obtain ⟨k, hk, rfl⟩ : ∃ k, k < 16 ∧ i = 15 - k := ⟨15 - i, by omega, by omega⟩
  unfold byteAt blockOf
  rw [show 15 - (15 - k) = k by omega]
  interval_cases k <;> (repeat rw [extract_append_high]) <;>
    first | exact extract_append_low _ _ | exact BitVec.extractLsb'_eq_self

/-- Bit `j` of byte `i` of a block. -/
theorem getLsbD_byteAt (b : Block) {i j : Nat} (hj : j < 8) :
    (byteAt b i).getLsbD j = b.getLsbD (8 * (15 - i) + j) := by
  simp [byteAt, hj]

/-- Two blocks with the same sixteen bytes are equal. -/
theorem block_ext {a b : Block} (h : ∀ i, i < 16 → byteAt a i = byteAt b i) : a = b := by
  apply BitVec.eq_of_getLsbD_eq
  intro k hk
  have h' := congrArg (fun y : Byte => y.getLsbD (k % 8)) (h (15 - k / 8) (by omega))
  simp only [getLsbD_byteAt _ (Nat.mod_lt k (by decide : 8 > 0))] at h'
  rwa [show 8 * (15 - (15 - k / 8)) + k % 8 = k by omega] at h'

/-- A block is the block of its own bytes. -/
theorem blockOf_byteAt (b : Block) : blockOf (byteAt b) = b :=
  block_ext fun _ hi => byteAt_blockOf _ hi

theorem byteAt_rev (b : Block) {i : Nat} (hi : i < 16) : byteAt (rev b) i = byteAt b (15 - i) :=
  byteAt_blockOf _ hi

/-- The reversal undoes itself: GHASH order and POLYVAL order are each other's reversal (00_scope.md R10). -/
@[simp] theorem rev_rev (b : Block) : rev (rev b) = b := by
  apply block_ext
  intro i hi
  rw [byteAt_rev _ hi, byteAt_rev _ (by omega)]
  congr 1
  omega

theorem byteAt_setByteAt (b : Block) (k : Nat) (v : Byte) {i : Nat} (hi : i < 16) :
    byteAt (setByteAt b k v) i = if i = k then v else byteAt b i :=
  byteAt_blockOf _ hi

@[simp] theorem byteAt_zero (i : Nat) : byteAt 0#128 i = 0#8 := by
  simp [byteAt]

theorem byteAt_xor (a b : Block) (i : Nat) : byteAt (a ^^^ b) i = byteAt a i ^^^ byteAt b i := by
  apply BitVec.eq_of_getLsbD_eq
  intro k hk
  simp [getLsbD_byteAt _ hk]

theorem byteAt_setLane (b : Block) (j : Nat) (v : Word) {i : Nat} (hi : i < 16) :
    byteAt (setLane b j v) i = if i / 4 = j then laneByte v (i % 4) else byteAt b i :=
  byteAt_blockOf _ hi

theorem keyByteAt_keyOf (f : Nat → Byte) {i : Nat} (hi : i < 32) : keyByteAt (keyOf f) i = f i := by
  unfold keyByteAt keyOf
  by_cases h : i < 16
  · rw [show 8 * (31 - i) = 128 + 8 * (15 - i) by omega, extract_halves_high]
    exact byteAt_blockOf f h
  · rw [extract_halves_low _ _ (by omega), show 31 - i = 15 - (i - 16) by omega]
    refine (byteAt_blockOf (fun i => f (16 + i)) (by omega)).trans ?_
    congr 1
    omega

theorem keyByteAt_setKeyLane (k : KeyStr) (j : Nat) (v : Word) {i : Nat} (hi : i < 32) :
    keyByteAt (setKeyLane k j v) i = if i / 4 = j then laneByte v (i % 4) else keyByteAt k i :=
  keyByteAt_keyOf _ hi

/-- The lanes of a register word are its bytes, the first in the least significant place (20_memory.md R37). -/
theorem laneByte_lane (b : Block) (j : Nat) {i : Nat} (hi : i < 4) :
    laneByte (lane b j) i = byteAt b (4 * j + i) := by
  unfold laneByte lane leWord
  interval_cases i <;> (repeat rw [extract_append_high]) <;>
    first | exact extract_append_low _ _ | exact BitVec.extractLsb'_eq_self

/-- Two words with the same four lane bytes are equal. -/
theorem word_ext {a b : Word} (h : ∀ i, i < 4 → laneByte a i = laneByte b i) : a = b := by
  apply BitVec.eq_of_getLsbD_eq
  intro k hk
  have h' := congrArg (fun y : Byte => y.getLsbD (k % 8)) (h (k / 8) (by omega))
  simp only [laneByte, BitVec.getLsbD_extractLsb', Nat.mod_lt k (by decide : 8 > 0), decide_true,
    Bool.true_and] at h'
  rwa [show 8 * (k / 8) + k % 8 = k by omega] at h'

/-- A lane reads back what was written to it (20_memory.md R41, R42), and the other lanes keep their value. -/
theorem lane_setLane (b : Block) (v : Word) {j k : Nat} (hk : k < 4) :
    lane (setLane b j v) k = if k = j then v else lane b k := by
  apply word_ext
  intro i hi
  rw [laneByte_lane _ _ hi, byteAt_setLane _ _ _ (by omega)]
  have hdiv : (4 * k + i) / 4 = k := by omega
  have hmod : (4 * k + i) % 4 = i := by omega
  rw [hdiv, hmod]
  split
  · rfl
  · exact (laneByte_lane _ _ hi).symm

theorem bytesUpTo_length (n : Nat) (b : Block) : (bytesUpTo n b).length = n := by
  simp [bytesUpTo]

theorem bytesUpTo_getElem (n : Nat) (b : Block) {i : Nat} (hi : i < (bytesUpTo n b).length) :
    (bytesUpTo n b)[i] = byteAt b i := by
  simp [bytesUpTo]

theorem wordByteAt_beWord (b0 b1 b2 b3 : Byte) :
    wordByteAt (beWord b0 b1 b2 b3) 0 = b0 ∧ wordByteAt (beWord b0 b1 b2 b3) 1 = b1 ∧
      wordByteAt (beWord b0 b1 b2 b3) 2 = b2 ∧ wordByteAt (beWord b0 b1 b2 b3) 3 = b3 := by
  unfold wordByteAt beWord
  refine ⟨?_, ?_, ?_, ?_⟩ <;> (repeat rw [extract_append_high]) <;>
    first | exact extract_append_low _ _ | exact BitVec.extractLsb'_eq_self

end Sys2Proof.Machine
end

