-- ==== Sys2Proof/Laws/Field.lean ====
section
/-! SUPPORT. The loop of the field product unrolled once, and the entries of the table: what proofs about GF(2^128) cite instead of
unfolding `gfmulLoop`, `tableEntry` or `table`. -/

namespace Sys2Proof.Machine

@[simp] theorem gfmulLoop_zero (a v z : Block) : gfmulLoop a 0 v z = z := rfl

theorem gfmulLoop_succ (a v z : Block) (k : Nat) :
    gfmulLoop a (k + 1) v z = gfmulLoop a k (mulX v) (if a.getLsbD k then z ^^^ v else z) := rfl

/-- The sum so far can be added at the end. -/
theorem gfmulLoop_acc (a : Block) (k : Nat) : ∀ v z : Block, gfmulLoop a k v z = gfmulLoop a k v 0#128 ^^^ z := by
  induction k with
  | zero => intro v z; simp
  | succ k ih =>
    intro v z
    rw [gfmulLoop_succ, gfmulLoop_succ]
    cases a.getLsbD k
    · exact ih _ _
    · rw [if_pos rfl, if_pos rfl, ih (mulX v) (z ^^^ v), ih (mulX v) (0#128 ^^^ v), BitVec.zero_xor]
      ac_rfl

/-- Coefficients of `a` that are all zero add nothing. -/
theorem gfmulLoop_of_zero (a : Block) (k : Nat) :
    (∀ i, i < k → a.getLsbD i = false) → ∀ v z : Block, gfmulLoop a k v z = z := by
  induction k with
  | zero => intro _ v z; rfl
  | succ k ih =>
    intro h v z
    rw [gfmulLoop_succ, h k (by omega)]
    exact ih (fun i hi => h i (by omega)) _ _

/-- An entry of the table is the recurrence's entry (44_polyval_field.md R90). -/
theorem table_getElem (h : Block) {v : Nat} (hv : v < 256) : (table h)[v] = tableEntry h 8 v := by
  simp [table]

theorem tableEntry_zero (h : Block) (fuel : Nat) : tableEntry h (fuel + 1) 0 = 0#128 := rfl

theorem tableEntry_one (h : Block) (fuel : Nat) : tableEntry h (fuel + 1) 1 = tableOne h := rfl

/-- Doubling is additive. -/
theorem mulX_xor (a b : Block) : mulX (a ^^^ b) = mulX a ^^^ mulX b := by
  have hc : ∀ x y : Block, x ^^^ y = x ^^^ polyR ^^^ (y ^^^ polyR) := by
    intro x y
    rw [show x ^^^ polyR ^^^ (y ^^^ polyR) = x ^^^ y ^^^ (polyR ^^^ polyR) by ac_rfl, BitVec.xor_self,
      BitVec.xor_zero]
  unfold mulX
  rw [BitVec.ushiftRight_xor_distrib, BitVec.getLsbD_xor]
  cases a.getLsbD 0 <;> cases b.getLsbD 0 <;> simp only [Bool.xor_false, Bool.false_xor, Bool.xor_self,
    if_true, if_false, BitVec.xor_zero, Bool.false_eq_true]
  · ac_rfl
  · ac_rfl
  · exact hc _ _

@[simp] theorem mulX_zero : mulX 0#128 = 0#128 := by decide

end Sys2Proof.Machine
end

