-- ==== Sys2Proof/Laws/State.lean ====
section
/-! SUPPORT. One lemma per field and per update of the state, so that no later proof unfolds a record update: what each shared
update of Machine/Ops.lean and Machine/Operands.lean leaves in each field. -/

namespace Sys2Proof.Machine

/-! ### `done`: success -/

@[simp] theorem State.done_key (s : State) : (s.done).key = s.key := rfl
@[simp] theorem State.done_st (s : State) : (s.done).st = s.st := rfl
@[simp] theorem State.done_rk (s : State) : (s.done).rk = s.rk := rfl
@[simp] theorem State.done_ksv (s : State) : (s.done).ksv = s.ksv := rfl
@[simp] theorem State.done_klen (s : State) : (s.done).klen = s.klen := rfl
@[simp] theorem State.done_x (s : State) : (s.done).x = s.x := rfl
@[simp] theorem State.done_hk (s : State) : (s.done).hk = s.hk := rfl
@[simp] theorem State.done_h (s : State) : (s.done).h = s.h := rfl
@[simp] theorem State.done_t (s : State) : (s.done).t = s.t := rfl
@[simp] theorem State.done_tbv (s : State) : (s.done).tbv = s.tbv := rfl
@[simp] theorem State.done_g (s : State) : (s.done).g = s.g := rfl
@[simp] theorem State.done_ad (s : State) : (s.done).ad = s.ad := rfl
@[simp] theorem State.done_msg (s : State) : (s.done).msg = s.msg := rfl
@[simp] theorem State.done_phase (s : State) : (s.done).phase = s.phase := rfl
@[simp] theorem State.done_fatal (s : State) : (s.done).fatal = s.fatal := rfl
@[simp] theorem State.done_err (s : State) : (s.done).err = .ok := rfl
@[simp] theorem State.done_tidx (s : State) : (s.done).tidx = s.tidx := rfl
@[simp] theorem State.done_par (s : State) : (s.done).par = s.par := rfl
@[simp] theorem State.done_pending (s : State) : (s.done).pending = s.pending := rfl
@[simp] theorem State.done_answers (s : State) : (s.done).answers = s.answers := rfl

/-! ### `failed`: `fail E` (40_command_dispatch.md R61) -/

@[simp] theorem State.failed_key (s : State) (e : ErrCode) : (s.failed e).key = s.key := rfl
@[simp] theorem State.failed_st (s : State) (e : ErrCode) : (s.failed e).st = s.st := rfl
@[simp] theorem State.failed_rk (s : State) (e : ErrCode) : (s.failed e).rk = s.rk := rfl
@[simp] theorem State.failed_ksv (s : State) (e : ErrCode) : (s.failed e).ksv = s.ksv := rfl
@[simp] theorem State.failed_klen (s : State) (e : ErrCode) : (s.failed e).klen = s.klen := rfl
@[simp] theorem State.failed_x (s : State) (e : ErrCode) : (s.failed e).x = s.x := rfl
@[simp] theorem State.failed_hk (s : State) (e : ErrCode) : (s.failed e).hk = s.hk := rfl
@[simp] theorem State.failed_h (s : State) (e : ErrCode) : (s.failed e).h = s.h := rfl
@[simp] theorem State.failed_t (s : State) (e : ErrCode) : (s.failed e).t = s.t := rfl
@[simp] theorem State.failed_tbv (s : State) (e : ErrCode) : (s.failed e).tbv = s.tbv := rfl
@[simp] theorem State.failed_g (s : State) (e : ErrCode) : (s.failed e).g = s.g := rfl
@[simp] theorem State.failed_ad (s : State) (e : ErrCode) : (s.failed e).ad = s.ad := rfl
@[simp] theorem State.failed_msg (s : State) (e : ErrCode) : (s.failed e).msg = s.msg := rfl
@[simp] theorem State.failed_phase (s : State) (e : ErrCode) : (s.failed e).phase = s.phase := rfl
@[simp] theorem State.failed_fatal (s : State) (e : ErrCode) : (s.failed e).fatal = if e = .limit then true else s.fatal := rfl
@[simp] theorem State.failed_err (s : State) (e : ErrCode) : (s.failed e).err = e := rfl
@[simp] theorem State.failed_tidx (s : State) (e : ErrCode) : (s.failed e).tidx = s.tidx := rfl
@[simp] theorem State.failed_par (s : State) (e : ErrCode) : (s.failed e).par = s.par := rfl
@[simp] theorem State.failed_pending (s : State) (e : ErrCode) : (s.failed e).pending = s.pending := rfl
@[simp] theorem State.failed_answers (s : State) (e : ErrCode) : (s.failed e).answers = s.answers := rfl

/-! ### `emptyHash` (45_polyval_engine.md R98) -/

@[simp] theorem State.emptyHash_key (s : State) : (s.emptyHash).key = s.key := rfl
@[simp] theorem State.emptyHash_st (s : State) : (s.emptyHash).st = s.st := rfl
@[simp] theorem State.emptyHash_rk (s : State) : (s.emptyHash).rk = s.rk := rfl
@[simp] theorem State.emptyHash_ksv (s : State) : (s.emptyHash).ksv = s.ksv := rfl
@[simp] theorem State.emptyHash_klen (s : State) : (s.emptyHash).klen = s.klen := rfl
@[simp] theorem State.emptyHash_x (s : State) : (s.emptyHash).x = s.x := rfl
@[simp] theorem State.emptyHash_hk (s : State) : (s.emptyHash).hk = s.hk := rfl
@[simp] theorem State.emptyHash_h (s : State) : (s.emptyHash).h = s.h := rfl
@[simp] theorem State.emptyHash_t (s : State) : (s.emptyHash).t = s.t := rfl
@[simp] theorem State.emptyHash_tbv (s : State) : (s.emptyHash).tbv = s.tbv := rfl
@[simp] theorem State.emptyHash_g (s : State) : (s.emptyHash).g = 0#128 := rfl
@[simp] theorem State.emptyHash_ad (s : State) : (s.emptyHash).ad = emptyHasher := rfl
@[simp] theorem State.emptyHash_msg (s : State) : (s.emptyHash).msg = emptyHasher := rfl
@[simp] theorem State.emptyHash_phase (s : State) : (s.emptyHash).phase = .ad := rfl
@[simp] theorem State.emptyHash_fatal (s : State) : (s.emptyHash).fatal = false := rfl
@[simp] theorem State.emptyHash_err (s : State) : (s.emptyHash).err = s.err := rfl
@[simp] theorem State.emptyHash_tidx (s : State) : (s.emptyHash).tidx = s.tidx := rfl
@[simp] theorem State.emptyHash_par (s : State) : (s.emptyHash).par = s.par := rfl
@[simp] theorem State.emptyHash_pending (s : State) : (s.emptyHash).pending = s.pending := rfl
@[simp] theorem State.emptyHash_answers (s : State) : (s.emptyHash).answers = s.answers := rfl

/-! ### `afterReset` (70_reset_and_hazards.md R121) -/

@[simp] theorem State.afterReset_key (s : State) : (s.afterReset).key = State.reset.key := rfl
@[simp] theorem State.afterReset_st (s : State) : (s.afterReset).st = State.reset.st := rfl
@[simp] theorem State.afterReset_rk (s : State) : (s.afterReset).rk = State.reset.rk := rfl
@[simp] theorem State.afterReset_ksv (s : State) : (s.afterReset).ksv = State.reset.ksv := rfl
@[simp] theorem State.afterReset_klen (s : State) : (s.afterReset).klen = State.reset.klen := rfl
@[simp] theorem State.afterReset_x (s : State) : (s.afterReset).x = State.reset.x := rfl
@[simp] theorem State.afterReset_hk (s : State) : (s.afterReset).hk = State.reset.hk := rfl
@[simp] theorem State.afterReset_h (s : State) : (s.afterReset).h = State.reset.h := rfl
@[simp] theorem State.afterReset_t (s : State) : (s.afterReset).t = State.reset.t := rfl
@[simp] theorem State.afterReset_tbv (s : State) : (s.afterReset).tbv = State.reset.tbv := rfl
@[simp] theorem State.afterReset_g (s : State) : (s.afterReset).g = State.reset.g := rfl
@[simp] theorem State.afterReset_ad (s : State) : (s.afterReset).ad = State.reset.ad := rfl
@[simp] theorem State.afterReset_msg (s : State) : (s.afterReset).msg = State.reset.msg := rfl
@[simp] theorem State.afterReset_phase (s : State) : (s.afterReset).phase = State.reset.phase := rfl
@[simp] theorem State.afterReset_fatal (s : State) : (s.afterReset).fatal = State.reset.fatal := rfl
@[simp] theorem State.afterReset_err (s : State) : (s.afterReset).err = State.reset.err := rfl
@[simp] theorem State.afterReset_tidx (s : State) : (s.afterReset).tidx = State.reset.tidx := rfl
@[simp] theorem State.afterReset_par (s : State) : (s.afterReset).par = s.par := rfl
@[simp] theorem State.afterReset_pending (s : State) : (s.afterReset).pending = s.pending := rfl
@[simp] theorem State.afterReset_answers (s : State) : (s.afterReset).answers = s.answers := rfl

/-! ### `withCommand`: the host writes a command word -/

@[simp] theorem State.withCommand_key (s : State) (c : Word) : (s.withCommand c).key = s.key := rfl
@[simp] theorem State.withCommand_st (s : State) (c : Word) : (s.withCommand c).st = s.st := rfl
@[simp] theorem State.withCommand_rk (s : State) (c : Word) : (s.withCommand c).rk = s.rk := rfl
@[simp] theorem State.withCommand_ksv (s : State) (c : Word) : (s.withCommand c).ksv = s.ksv := rfl
@[simp] theorem State.withCommand_klen (s : State) (c : Word) : (s.withCommand c).klen = s.klen := rfl
@[simp] theorem State.withCommand_x (s : State) (c : Word) : (s.withCommand c).x = s.x := rfl
@[simp] theorem State.withCommand_hk (s : State) (c : Word) : (s.withCommand c).hk = s.hk := rfl
@[simp] theorem State.withCommand_h (s : State) (c : Word) : (s.withCommand c).h = s.h := rfl
@[simp] theorem State.withCommand_t (s : State) (c : Word) : (s.withCommand c).t = s.t := rfl
@[simp] theorem State.withCommand_tbv (s : State) (c : Word) : (s.withCommand c).tbv = s.tbv := rfl
@[simp] theorem State.withCommand_g (s : State) (c : Word) : (s.withCommand c).g = s.g := rfl
@[simp] theorem State.withCommand_ad (s : State) (c : Word) : (s.withCommand c).ad = s.ad := rfl
@[simp] theorem State.withCommand_msg (s : State) (c : Word) : (s.withCommand c).msg = s.msg := rfl
@[simp] theorem State.withCommand_phase (s : State) (c : Word) : (s.withCommand c).phase = s.phase := rfl
@[simp] theorem State.withCommand_fatal (s : State) (c : Word) : (s.withCommand c).fatal = s.fatal := rfl
@[simp] theorem State.withCommand_err (s : State) (c : Word) : (s.withCommand c).err = s.err := rfl
@[simp] theorem State.withCommand_tidx (s : State) (c : Word) : (s.withCommand c).tidx = s.tidx := rfl
@[simp] theorem State.withCommand_par (s : State) (c : Word) : (s.withCommand c).par = s.par := rfl
@[simp] theorem State.withCommand_pending (s : State) (c : Word) : (s.withCommand c).pending = .write 32 s.par.base c :: s.pending := rfl
@[simp] theorem State.withCommand_answers (s : State) (c : Word) : (s.withCommand c).answers = s.answers := rfl

/-! ### `setChan`: one channel replaced, read through `chan` -/

@[simp] theorem State.chan_ad (s : State) : s.chan .ad = s.ad := rfl
@[simp] theorem State.chan_msg (s : State) : s.chan .msg = s.msg := rfl

@[simp] theorem State.chan_setChan_same (s : State) (ch : Channel) (c : Hasher) :
    (s.setChan ch c).chan ch = c := by
  cases ch <;> rfl

theorem State.chan_setChan_other (s : State) {ch ch' : Channel} (c : Hasher) (h : ch' ≠ ch) :
    (s.setChan ch c).chan ch' = s.chan ch' := by
  cases ch <;> cases ch' <;> first | rfl | exact absurd rfl h

/-! ### The other fields of `setChan` -/

@[simp] theorem State.setChan_key (s : State) (ch : Channel) (c : Hasher) : (s.setChan ch c).key = s.key := by
  cases ch <;> rfl
@[simp] theorem State.setChan_st (s : State) (ch : Channel) (c : Hasher) : (s.setChan ch c).st = s.st := by
  cases ch <;> rfl
@[simp] theorem State.setChan_rk (s : State) (ch : Channel) (c : Hasher) : (s.setChan ch c).rk = s.rk := by
  cases ch <;> rfl
@[simp] theorem State.setChan_ksv (s : State) (ch : Channel) (c : Hasher) : (s.setChan ch c).ksv = s.ksv := by
  cases ch <;> rfl
@[simp] theorem State.setChan_klen (s : State) (ch : Channel) (c : Hasher) : (s.setChan ch c).klen = s.klen := by
  cases ch <;> rfl
@[simp] theorem State.setChan_x (s : State) (ch : Channel) (c : Hasher) : (s.setChan ch c).x = s.x := by
  cases ch <;> rfl
@[simp] theorem State.setChan_hk (s : State) (ch : Channel) (c : Hasher) : (s.setChan ch c).hk = s.hk := by
  cases ch <;> rfl
@[simp] theorem State.setChan_h (s : State) (ch : Channel) (c : Hasher) : (s.setChan ch c).h = s.h := by
  cases ch <;> rfl
@[simp] theorem State.setChan_t (s : State) (ch : Channel) (c : Hasher) : (s.setChan ch c).t = s.t := by
  cases ch <;> rfl
@[simp] theorem State.setChan_tbv (s : State) (ch : Channel) (c : Hasher) : (s.setChan ch c).tbv = s.tbv := by
  cases ch <;> rfl
@[simp] theorem State.setChan_g (s : State) (ch : Channel) (c : Hasher) : (s.setChan ch c).g = s.g := by
  cases ch <;> rfl
@[simp] theorem State.setChan_phase (s : State) (ch : Channel) (c : Hasher) : (s.setChan ch c).phase = s.phase := by
  cases ch <;> rfl
@[simp] theorem State.setChan_fatal (s : State) (ch : Channel) (c : Hasher) : (s.setChan ch c).fatal = s.fatal := by
  cases ch <;> rfl
@[simp] theorem State.setChan_err (s : State) (ch : Channel) (c : Hasher) : (s.setChan ch c).err = s.err := by
  cases ch <;> rfl
@[simp] theorem State.setChan_tidx (s : State) (ch : Channel) (c : Hasher) : (s.setChan ch c).tidx = s.tidx := by
  cases ch <;> rfl
@[simp] theorem State.setChan_par (s : State) (ch : Channel) (c : Hasher) : (s.setChan ch c).par = s.par := by
  cases ch <;> rfl
@[simp] theorem State.setChan_pending (s : State) (ch : Channel) (c : Hasher) : (s.setChan ch c).pending = s.pending := by
  cases ch <;> rfl
@[simp] theorem State.setChan_answers (s : State) (ch : Channel) (c : Hasher) : (s.setChan ch c).answers = s.answers := by
  cases ch <;> rfl

/-! ### The hashing helpers: only `G` and the channels change -/

/-- What `Flush(ch)` can do (45_polyval_engine.md R96). -/
theorem State.flush_cases (s : State) (ch : Channel) :
    ((s.chan ch).nact = 0#4 ∧ s.flush ch = s) ∨
      ((s.chan ch).nact ≠ 0#4 ∧
        s.flush ch = { s with g := polyStep s.h s.g (s.chan ch).pb }.setChan ch
          { s.chan ch with pb := 0#128, nact := 0#4 }) := by
  by_cases h : (s.chan ch).nact = 0#4
  · exact .inl ⟨h, if_pos h⟩
  · exact .inr ⟨h, if_neg h⟩

/-- What `Absorb(ch, byte)` can do (45_polyval_engine.md R96). -/
theorem State.absorb_cases (s : State) (ch : Channel) (b : Byte) :
    ((s.chan ch).nact.toNat + 1 = 16 ∧
        s.absorb ch b =
          { s with g := polyStep s.h s.g (setByteAt (s.chan ch).pb (s.chan ch).nact.toNat b) }.setChan ch
            { s.chan ch with pb := 0#128, nact := 0#4 }) ∨
      ((s.chan ch).nact.toNat + 1 ≠ 16 ∧
        s.absorb ch b = s.setChan ch
          { s.chan ch with
            pb := setByteAt (s.chan ch).pb (s.chan ch).nact.toNat b
            nact := (s.chan ch).nact + 1#4 }) := by
  by_cases h : (s.chan ch).nact.toNat + 1 = 16
  · exact .inl ⟨h, if_pos h⟩
  · exact .inr ⟨h, if_neg h⟩

/-- What the opening of a channel can do (45_polyval_engine.md R99). -/
theorem State.openChannel_cases (s : State) (ch : Channel) :
    (ch = .msg ∧ s.phase = .ad ∧ s.openChannel ch = { s.flush .ad with phase := .msg }) ∨
      (¬(ch = .msg ∧ s.phase = .ad) ∧ s.openChannel ch = s) := by
  by_cases h : ch = .msg ∧ s.phase = .ad
  · exact .inl ⟨h.1, h.2, if_pos h⟩
  · exact .inr ⟨h, if_neg h⟩

@[simp] theorem State.absorbAll_nil (s : State) (ch : Channel) : s.absorbAll ch [] = s := rfl

@[simp] theorem State.absorbAll_cons (s : State) (ch : Channel) (b : Byte) (bs : List Byte) :
    s.absorbAll ch (b :: bs) = (s.absorb ch b).absorbAll ch bs := rfl

/-- Absorbing in two parts is absorbing at once (45_polyval_engine.md R99, corner cases). -/
theorem State.absorbAll_append (s : State) (ch : Channel) (bs cs : List Byte) :
    s.absorbAll ch (bs ++ cs) = (s.absorbAll ch bs).absorbAll ch cs :=
  List.foldl_append

/-! ### `flush` -/

@[simp] theorem State.flush_key (s : State) (ch : Channel) : (s.flush ch).key = s.key := by
  rcases s.flush_cases ch with ⟨-, h⟩ | ⟨-, h⟩ <;> simp [h]
@[simp] theorem State.flush_st (s : State) (ch : Channel) : (s.flush ch).st = s.st := by
  rcases s.flush_cases ch with ⟨-, h⟩ | ⟨-, h⟩ <;> simp [h]
@[simp] theorem State.flush_rk (s : State) (ch : Channel) : (s.flush ch).rk = s.rk := by
  rcases s.flush_cases ch with ⟨-, h⟩ | ⟨-, h⟩ <;> simp [h]
@[simp] theorem State.flush_ksv (s : State) (ch : Channel) : (s.flush ch).ksv = s.ksv := by
  rcases s.flush_cases ch with ⟨-, h⟩ | ⟨-, h⟩ <;> simp [h]
@[simp] theorem State.flush_klen (s : State) (ch : Channel) : (s.flush ch).klen = s.klen := by
  rcases s.flush_cases ch with ⟨-, h⟩ | ⟨-, h⟩ <;> simp [h]
@[simp] theorem State.flush_x (s : State) (ch : Channel) : (s.flush ch).x = s.x := by
  rcases s.flush_cases ch with ⟨-, h⟩ | ⟨-, h⟩ <;> simp [h]
@[simp] theorem State.flush_hk (s : State) (ch : Channel) : (s.flush ch).hk = s.hk := by
  rcases s.flush_cases ch with ⟨-, h⟩ | ⟨-, h⟩ <;> simp [h]
@[simp] theorem State.flush_h (s : State) (ch : Channel) : (s.flush ch).h = s.h := by
  rcases s.flush_cases ch with ⟨-, h⟩ | ⟨-, h⟩ <;> simp [h]
@[simp] theorem State.flush_t (s : State) (ch : Channel) : (s.flush ch).t = s.t := by
  rcases s.flush_cases ch with ⟨-, h⟩ | ⟨-, h⟩ <;> simp [h]
@[simp] theorem State.flush_tbv (s : State) (ch : Channel) : (s.flush ch).tbv = s.tbv := by
  rcases s.flush_cases ch with ⟨-, h⟩ | ⟨-, h⟩ <;> simp [h]
@[simp] theorem State.flush_phase (s : State) (ch : Channel) : (s.flush ch).phase = s.phase := by
  rcases s.flush_cases ch with ⟨-, h⟩ | ⟨-, h⟩ <;> simp [h]
@[simp] theorem State.flush_fatal (s : State) (ch : Channel) : (s.flush ch).fatal = s.fatal := by
  rcases s.flush_cases ch with ⟨-, h⟩ | ⟨-, h⟩ <;> simp [h]
@[simp] theorem State.flush_err (s : State) (ch : Channel) : (s.flush ch).err = s.err := by
  rcases s.flush_cases ch with ⟨-, h⟩ | ⟨-, h⟩ <;> simp [h]
@[simp] theorem State.flush_tidx (s : State) (ch : Channel) : (s.flush ch).tidx = s.tidx := by
  rcases s.flush_cases ch with ⟨-, h⟩ | ⟨-, h⟩ <;> simp [h]
@[simp] theorem State.flush_par (s : State) (ch : Channel) : (s.flush ch).par = s.par := by
  rcases s.flush_cases ch with ⟨-, h⟩ | ⟨-, h⟩ <;> simp [h]
@[simp] theorem State.flush_pending (s : State) (ch : Channel) : (s.flush ch).pending = s.pending := by
  rcases s.flush_cases ch with ⟨-, h⟩ | ⟨-, h⟩ <;> simp [h]
@[simp] theorem State.flush_answers (s : State) (ch : Channel) : (s.flush ch).answers = s.answers := by
  rcases s.flush_cases ch with ⟨-, h⟩ | ⟨-, h⟩ <;> simp [h]

/-! ### `absorb` -/

@[simp] theorem State.absorb_key (s : State) (ch : Channel) (b : Byte) : (s.absorb ch b).key = s.key := by
  rcases s.absorb_cases ch b with ⟨-, h⟩ | ⟨-, h⟩ <;> simp [h]
@[simp] theorem State.absorb_st (s : State) (ch : Channel) (b : Byte) : (s.absorb ch b).st = s.st := by
  rcases s.absorb_cases ch b with ⟨-, h⟩ | ⟨-, h⟩ <;> simp [h]
@[simp] theorem State.absorb_rk (s : State) (ch : Channel) (b : Byte) : (s.absorb ch b).rk = s.rk := by
  rcases s.absorb_cases ch b with ⟨-, h⟩ | ⟨-, h⟩ <;> simp [h]
@[simp] theorem State.absorb_ksv (s : State) (ch : Channel) (b : Byte) : (s.absorb ch b).ksv = s.ksv := by
  rcases s.absorb_cases ch b with ⟨-, h⟩ | ⟨-, h⟩ <;> simp [h]
@[simp] theorem State.absorb_klen (s : State) (ch : Channel) (b : Byte) : (s.absorb ch b).klen = s.klen := by
  rcases s.absorb_cases ch b with ⟨-, h⟩ | ⟨-, h⟩ <;> simp [h]
@[simp] theorem State.absorb_x (s : State) (ch : Channel) (b : Byte) : (s.absorb ch b).x = s.x := by
  rcases s.absorb_cases ch b with ⟨-, h⟩ | ⟨-, h⟩ <;> simp [h]
@[simp] theorem State.absorb_hk (s : State) (ch : Channel) (b : Byte) : (s.absorb ch b).hk = s.hk := by
  rcases s.absorb_cases ch b with ⟨-, h⟩ | ⟨-, h⟩ <;> simp [h]
@[simp] theorem State.absorb_h (s : State) (ch : Channel) (b : Byte) : (s.absorb ch b).h = s.h := by
  rcases s.absorb_cases ch b with ⟨-, h⟩ | ⟨-, h⟩ <;> simp [h]
@[simp] theorem State.absorb_t (s : State) (ch : Channel) (b : Byte) : (s.absorb ch b).t = s.t := by
  rcases s.absorb_cases ch b with ⟨-, h⟩ | ⟨-, h⟩ <;> simp [h]
@[simp] theorem State.absorb_tbv (s : State) (ch : Channel) (b : Byte) : (s.absorb ch b).tbv = s.tbv := by
  rcases s.absorb_cases ch b with ⟨-, h⟩ | ⟨-, h⟩ <;> simp [h]
@[simp] theorem State.absorb_phase (s : State) (ch : Channel) (b : Byte) : (s.absorb ch b).phase = s.phase := by
  rcases s.absorb_cases ch b with ⟨-, h⟩ | ⟨-, h⟩ <;> simp [h]
@[simp] theorem State.absorb_fatal (s : State) (ch : Channel) (b : Byte) : (s.absorb ch b).fatal = s.fatal := by
  rcases s.absorb_cases ch b with ⟨-, h⟩ | ⟨-, h⟩ <;> simp [h]
@[simp] theorem State.absorb_err (s : State) (ch : Channel) (b : Byte) : (s.absorb ch b).err = s.err := by
  rcases s.absorb_cases ch b with ⟨-, h⟩ | ⟨-, h⟩ <;> simp [h]
@[simp] theorem State.absorb_tidx (s : State) (ch : Channel) (b : Byte) : (s.absorb ch b).tidx = s.tidx := by
  rcases s.absorb_cases ch b with ⟨-, h⟩ | ⟨-, h⟩ <;> simp [h]
@[simp] theorem State.absorb_par (s : State) (ch : Channel) (b : Byte) : (s.absorb ch b).par = s.par := by
  rcases s.absorb_cases ch b with ⟨-, h⟩ | ⟨-, h⟩ <;> simp [h]
@[simp] theorem State.absorb_pending (s : State) (ch : Channel) (b : Byte) : (s.absorb ch b).pending = s.pending := by
  rcases s.absorb_cases ch b with ⟨-, h⟩ | ⟨-, h⟩ <;> simp [h]
@[simp] theorem State.absorb_answers (s : State) (ch : Channel) (b : Byte) : (s.absorb ch b).answers = s.answers := by
  rcases s.absorb_cases ch b with ⟨-, h⟩ | ⟨-, h⟩ <;> simp [h]

/-! ### `absorbAll` -/

@[simp] theorem State.absorbAll_key (ch : Channel) (bs : List Byte) :
    ∀ s : State, (s.absorbAll ch bs).key = s.key := by
  induction bs with
  | nil => exact fun _ => rfl
  | cons b bs ih => exact fun s => (ih _).trans (s.absorb_key ch b)
@[simp] theorem State.absorbAll_st (ch : Channel) (bs : List Byte) :
    ∀ s : State, (s.absorbAll ch bs).st = s.st := by
  induction bs with
  | nil => exact fun _ => rfl
  | cons b bs ih => exact fun s => (ih _).trans (s.absorb_st ch b)
@[simp] theorem State.absorbAll_rk (ch : Channel) (bs : List Byte) :
    ∀ s : State, (s.absorbAll ch bs).rk = s.rk := by
  induction bs with
  | nil => exact fun _ => rfl
  | cons b bs ih => exact fun s => (ih _).trans (s.absorb_rk ch b)
@[simp] theorem State.absorbAll_ksv (ch : Channel) (bs : List Byte) :
    ∀ s : State, (s.absorbAll ch bs).ksv = s.ksv := by
  induction bs with
  | nil => exact fun _ => rfl
  | cons b bs ih => exact fun s => (ih _).trans (s.absorb_ksv ch b)
@[simp] theorem State.absorbAll_klen (ch : Channel) (bs : List Byte) :
    ∀ s : State, (s.absorbAll ch bs).klen = s.klen := by
  induction bs with
  | nil => exact fun _ => rfl
  | cons b bs ih => exact fun s => (ih _).trans (s.absorb_klen ch b)
@[simp] theorem State.absorbAll_x (ch : Channel) (bs : List Byte) :
    ∀ s : State, (s.absorbAll ch bs).x = s.x := by
  induction bs with
  | nil => exact fun _ => rfl
  | cons b bs ih => exact fun s => (ih _).trans (s.absorb_x ch b)
@[simp] theorem State.absorbAll_hk (ch : Channel) (bs : List Byte) :
    ∀ s : State, (s.absorbAll ch bs).hk = s.hk := by
  induction bs with
  | nil => exact fun _ => rfl
  | cons b bs ih => exact fun s => (ih _).trans (s.absorb_hk ch b)
@[simp] theorem State.absorbAll_h (ch : Channel) (bs : List Byte) :
    ∀ s : State, (s.absorbAll ch bs).h = s.h := by
  induction bs with
  | nil => exact fun _ => rfl
  | cons b bs ih => exact fun s => (ih _).trans (s.absorb_h ch b)
@[simp] theorem State.absorbAll_t (ch : Channel) (bs : List Byte) :
    ∀ s : State, (s.absorbAll ch bs).t = s.t := by
  induction bs with
  | nil => exact fun _ => rfl
  | cons b bs ih => exact fun s => (ih _).trans (s.absorb_t ch b)
@[simp] theorem State.absorbAll_tbv (ch : Channel) (bs : List Byte) :
    ∀ s : State, (s.absorbAll ch bs).tbv = s.tbv := by
  induction bs with
  | nil => exact fun _ => rfl
  | cons b bs ih => exact fun s => (ih _).trans (s.absorb_tbv ch b)
@[simp] theorem State.absorbAll_phase (ch : Channel) (bs : List Byte) :
    ∀ s : State, (s.absorbAll ch bs).phase = s.phase := by
  induction bs with
  | nil => exact fun _ => rfl
  | cons b bs ih => exact fun s => (ih _).trans (s.absorb_phase ch b)
@[simp] theorem State.absorbAll_fatal (ch : Channel) (bs : List Byte) :
    ∀ s : State, (s.absorbAll ch bs).fatal = s.fatal := by
  induction bs with
  | nil => exact fun _ => rfl
  | cons b bs ih => exact fun s => (ih _).trans (s.absorb_fatal ch b)
@[simp] theorem State.absorbAll_err (ch : Channel) (bs : List Byte) :
    ∀ s : State, (s.absorbAll ch bs).err = s.err := by
  induction bs with
  | nil => exact fun _ => rfl
  | cons b bs ih => exact fun s => (ih _).trans (s.absorb_err ch b)
@[simp] theorem State.absorbAll_tidx (ch : Channel) (bs : List Byte) :
    ∀ s : State, (s.absorbAll ch bs).tidx = s.tidx := by
  induction bs with
  | nil => exact fun _ => rfl
  | cons b bs ih => exact fun s => (ih _).trans (s.absorb_tidx ch b)
@[simp] theorem State.absorbAll_par (ch : Channel) (bs : List Byte) :
    ∀ s : State, (s.absorbAll ch bs).par = s.par := by
  induction bs with
  | nil => exact fun _ => rfl
  | cons b bs ih => exact fun s => (ih _).trans (s.absorb_par ch b)
@[simp] theorem State.absorbAll_pending (ch : Channel) (bs : List Byte) :
    ∀ s : State, (s.absorbAll ch bs).pending = s.pending := by
  induction bs with
  | nil => exact fun _ => rfl
  | cons b bs ih => exact fun s => (ih _).trans (s.absorb_pending ch b)
@[simp] theorem State.absorbAll_answers (ch : Channel) (bs : List Byte) :
    ∀ s : State, (s.absorbAll ch bs).answers = s.answers := by
  induction bs with
  | nil => exact fun _ => rfl
  | cons b bs ih => exact fun s => (ih _).trans (s.absorb_answers ch b)

/-! ### `addTotal` -/

@[simp] theorem State.addTotal_key (s : State) (ch : Channel) (n : Nat) : (s.addTotal ch n).key = s.key := by
  simp [State.addTotal]
@[simp] theorem State.addTotal_st (s : State) (ch : Channel) (n : Nat) : (s.addTotal ch n).st = s.st := by
  simp [State.addTotal]
@[simp] theorem State.addTotal_rk (s : State) (ch : Channel) (n : Nat) : (s.addTotal ch n).rk = s.rk := by
  simp [State.addTotal]
@[simp] theorem State.addTotal_ksv (s : State) (ch : Channel) (n : Nat) : (s.addTotal ch n).ksv = s.ksv := by
  simp [State.addTotal]
@[simp] theorem State.addTotal_klen (s : State) (ch : Channel) (n : Nat) : (s.addTotal ch n).klen = s.klen := by
  simp [State.addTotal]
@[simp] theorem State.addTotal_x (s : State) (ch : Channel) (n : Nat) : (s.addTotal ch n).x = s.x := by
  simp [State.addTotal]
@[simp] theorem State.addTotal_hk (s : State) (ch : Channel) (n : Nat) : (s.addTotal ch n).hk = s.hk := by
  simp [State.addTotal]
@[simp] theorem State.addTotal_h (s : State) (ch : Channel) (n : Nat) : (s.addTotal ch n).h = s.h := by
  simp [State.addTotal]
@[simp] theorem State.addTotal_t (s : State) (ch : Channel) (n : Nat) : (s.addTotal ch n).t = s.t := by
  simp [State.addTotal]
@[simp] theorem State.addTotal_tbv (s : State) (ch : Channel) (n : Nat) : (s.addTotal ch n).tbv = s.tbv := by
  simp [State.addTotal]
@[simp] theorem State.addTotal_g (s : State) (ch : Channel) (n : Nat) : (s.addTotal ch n).g = s.g := by
  simp [State.addTotal]
@[simp] theorem State.addTotal_phase (s : State) (ch : Channel) (n : Nat) : (s.addTotal ch n).phase = s.phase := by
  simp [State.addTotal]
@[simp] theorem State.addTotal_fatal (s : State) (ch : Channel) (n : Nat) : (s.addTotal ch n).fatal = s.fatal := by
  simp [State.addTotal]
@[simp] theorem State.addTotal_err (s : State) (ch : Channel) (n : Nat) : (s.addTotal ch n).err = s.err := by
  simp [State.addTotal]
@[simp] theorem State.addTotal_tidx (s : State) (ch : Channel) (n : Nat) : (s.addTotal ch n).tidx = s.tidx := by
  simp [State.addTotal]
@[simp] theorem State.addTotal_par (s : State) (ch : Channel) (n : Nat) : (s.addTotal ch n).par = s.par := by
  simp [State.addTotal]
@[simp] theorem State.addTotal_pending (s : State) (ch : Channel) (n : Nat) : (s.addTotal ch n).pending = s.pending := by
  simp [State.addTotal]
@[simp] theorem State.addTotal_answers (s : State) (ch : Channel) (n : Nat) : (s.addTotal ch n).answers = s.answers := by
  simp [State.addTotal]

/-! ### `openChannel` -/

@[simp] theorem State.openChannel_key (s : State) (ch : Channel) : (s.openChannel ch).key = s.key := by
  rcases s.openChannel_cases ch with ⟨-, -, h⟩ | ⟨-, h⟩ <;> simp [h]
@[simp] theorem State.openChannel_st (s : State) (ch : Channel) : (s.openChannel ch).st = s.st := by
  rcases s.openChannel_cases ch with ⟨-, -, h⟩ | ⟨-, h⟩ <;> simp [h]
@[simp] theorem State.openChannel_rk (s : State) (ch : Channel) : (s.openChannel ch).rk = s.rk := by
  rcases s.openChannel_cases ch with ⟨-, -, h⟩ | ⟨-, h⟩ <;> simp [h]
@[simp] theorem State.openChannel_ksv (s : State) (ch : Channel) : (s.openChannel ch).ksv = s.ksv := by
  rcases s.openChannel_cases ch with ⟨-, -, h⟩ | ⟨-, h⟩ <;> simp [h]
@[simp] theorem State.openChannel_klen (s : State) (ch : Channel) : (s.openChannel ch).klen = s.klen := by
  rcases s.openChannel_cases ch with ⟨-, -, h⟩ | ⟨-, h⟩ <;> simp [h]
@[simp] theorem State.openChannel_x (s : State) (ch : Channel) : (s.openChannel ch).x = s.x := by
  rcases s.openChannel_cases ch with ⟨-, -, h⟩ | ⟨-, h⟩ <;> simp [h]
@[simp] theorem State.openChannel_hk (s : State) (ch : Channel) : (s.openChannel ch).hk = s.hk := by
  rcases s.openChannel_cases ch with ⟨-, -, h⟩ | ⟨-, h⟩ <;> simp [h]
@[simp] theorem State.openChannel_h (s : State) (ch : Channel) : (s.openChannel ch).h = s.h := by
  rcases s.openChannel_cases ch with ⟨-, -, h⟩ | ⟨-, h⟩ <;> simp [h]
@[simp] theorem State.openChannel_t (s : State) (ch : Channel) : (s.openChannel ch).t = s.t := by
  rcases s.openChannel_cases ch with ⟨-, -, h⟩ | ⟨-, h⟩ <;> simp [h]
@[simp] theorem State.openChannel_tbv (s : State) (ch : Channel) : (s.openChannel ch).tbv = s.tbv := by
  rcases s.openChannel_cases ch with ⟨-, -, h⟩ | ⟨-, h⟩ <;> simp [h]
@[simp] theorem State.openChannel_fatal (s : State) (ch : Channel) : (s.openChannel ch).fatal = s.fatal := by
  rcases s.openChannel_cases ch with ⟨-, -, h⟩ | ⟨-, h⟩ <;> simp [h]
@[simp] theorem State.openChannel_err (s : State) (ch : Channel) : (s.openChannel ch).err = s.err := by
  rcases s.openChannel_cases ch with ⟨-, -, h⟩ | ⟨-, h⟩ <;> simp [h]
@[simp] theorem State.openChannel_tidx (s : State) (ch : Channel) : (s.openChannel ch).tidx = s.tidx := by
  rcases s.openChannel_cases ch with ⟨-, -, h⟩ | ⟨-, h⟩ <;> simp [h]
@[simp] theorem State.openChannel_par (s : State) (ch : Channel) : (s.openChannel ch).par = s.par := by
  rcases s.openChannel_cases ch with ⟨-, -, h⟩ | ⟨-, h⟩ <;> simp [h]
@[simp] theorem State.openChannel_pending (s : State) (ch : Channel) : (s.openChannel ch).pending = s.pending := by
  rcases s.openChannel_cases ch with ⟨-, -, h⟩ | ⟨-, h⟩ <;> simp [h]
@[simp] theorem State.openChannel_answers (s : State) (ch : Channel) : (s.openChannel ch).answers = s.answers := by
  rcases s.openChannel_cases ch with ⟨-, -, h⟩ | ⟨-, h⟩ <;> simp [h]

/-! ### `finishHash` -/

@[simp] theorem State.finishHash_key (s : State) : (s.finishHash).key = s.key := by
  simp [State.finishHash]
@[simp] theorem State.finishHash_st (s : State) : (s.finishHash).st = s.st := by
  simp [State.finishHash]
@[simp] theorem State.finishHash_rk (s : State) : (s.finishHash).rk = s.rk := by
  simp [State.finishHash]
@[simp] theorem State.finishHash_ksv (s : State) : (s.finishHash).ksv = s.ksv := by
  simp [State.finishHash]
@[simp] theorem State.finishHash_klen (s : State) : (s.finishHash).klen = s.klen := by
  simp [State.finishHash]
@[simp] theorem State.finishHash_x (s : State) : (s.finishHash).x = s.x := by
  simp [State.finishHash]
@[simp] theorem State.finishHash_hk (s : State) : (s.finishHash).hk = s.hk := by
  simp [State.finishHash]
@[simp] theorem State.finishHash_h (s : State) : (s.finishHash).h = s.h := by
  simp [State.finishHash]
@[simp] theorem State.finishHash_t (s : State) : (s.finishHash).t = s.t := by
  simp [State.finishHash]
@[simp] theorem State.finishHash_tbv (s : State) : (s.finishHash).tbv = s.tbv := by
  simp [State.finishHash]
@[simp] theorem State.finishHash_phase (s : State) : (s.finishHash).phase = .final := by
  simp [State.finishHash]
@[simp] theorem State.finishHash_fatal (s : State) : (s.finishHash).fatal = s.fatal := by
  simp [State.finishHash]
@[simp] theorem State.finishHash_err (s : State) : (s.finishHash).err = s.err := by
  simp [State.finishHash]
@[simp] theorem State.finishHash_tidx (s : State) : (s.finishHash).tidx = s.tidx := by
  simp [State.finishHash]
@[simp] theorem State.finishHash_par (s : State) : (s.finishHash).par = s.par := by
  simp [State.finishHash]
@[simp] theorem State.finishHash_pending (s : State) : (s.finishHash).pending = s.pending := by
  simp [State.finishHash]
@[simp] theorem State.finishHash_answers (s : State) : (s.finishHash).answers = s.answers := by
  simp [State.finishHash]

end Sys2Proof.Machine
end

