-- ==== Sys2Proof/Laws/Ops.lean ====
section
/-! SUPPORT. What each shared operation and each meaning can do, said once: how a check ends a command, and for every meaning the
cases of its answer, which later proofs cite instead of unfolding it. -/

namespace Sys2Proof.Machine

theorem check_pass {c : Prop} [Decidable c] (h : c) (e : ErrCode) (s : State) (go : Result) :
    check c e s go = go := if_pos h

theorem check_stop {c : Prop} [Decidable c] (h : ¬c) (e : ErrCode) (s : State) (go : Result) :
    check c e s go = .next (s.failed e) := if_neg h

/-- A check that is answered by a next state: it held and the command went on, or the command failed. -/
theorem check_next {c : Prop} [Decidable c] {e : ErrCode} {s t : State} {go : Result}
    (h : check c e s go = .next t) : (c ∧ go = .next t) ∨ (¬c ∧ t = s.failed e) := by
  by_cases hc : c
  · exact .inl ⟨hc, (check_pass hc e s go).symm.trans h⟩
  · exact .inr ⟨hc, by simpa using ((check_stop hc e s go).symm.trans h).symm⟩

/-- A check answers a next state if what it guards does. -/
theorem check_completes {c : Prop} [Decidable c] (e : ErrCode) (s : State) {go : Result}
    (h : ∃ t, go = .next t) : ∃ t, check c e s go = .next t := by
  by_cases hc : c
  · exact h.imp fun _ ht => (check_pass hc e s go).trans ht
  · exact ⟨_, check_stop hc e s go⟩

theorem succeed_next {s t : State} (h : succeed s = .next t) : t = s.done := by
  simpa [succeed] using h.symm

theorem fail_next {e : ErrCode} {s t : State} (h : fail e s = .next t) : t = s.failed e := by
  simpa [fail] using h.symm

/-- `fail` of any code but `ERR_LIMIT` changes `ERR` alone (40_command_dispatch.md R61). -/
theorem State.failed_eq (s : State) {e : ErrCode} (h : e ≠ .limit) : s.failed e = { s with err := e } := by
  simp [State.failed, h]

theorem execKexp_cases {kl : Nat} {s t : State} (h : execKexp kl s = .next t) :
    (keyLenOf kl = none ∧ t = s.failed .keylen) ∨
      ∃ k, keyLenOf kl = some k ∧
        t = ({ s with rk := scheduleFile k s.key, ksv := true, klen := k } : State).done := by
  unfold execKexp at h
  split at h
  · exact .inl ⟨‹_›, fail_next h⟩
  · exact .inr ⟨_, ‹_›, succeed_next h⟩

theorem execEnc_cases {s t : State} (h : execEnc s = .next t) :
    (s.ksv = true ∧ t = ({ s with st := cipher s.rk s.klen.nr s.st } : State).done) ∨
      (s.ksv = false ∧ t = s.failed .nokey) :=
  (check_next h).imp (fun ⟨hc, hg⟩ => ⟨hc, succeed_next hg⟩) fun ⟨hc, ht⟩ => ⟨Bool.eq_false_of_not_eq_true hc, ht⟩

theorem roundCommand_cases {r : Nat} {s t : State} {b : Block} (h : roundCommand r s b = .next t) :
    (s.ksv = true ∧ r ≤ s.klen.nr ∧ t = ({ s with st := b } : State).done) ∨
      (s.ksv = false ∧ t = s.failed .nokey) ∨
      (s.ksv = true ∧ s.klen.nr < r ∧ t = s.failed .round) := by
  rcases check_next h with ⟨hk, h⟩ | ⟨hk, h⟩
  · rcases check_next h with ⟨hr, h⟩ | ⟨hr, h⟩
    · exact .inl ⟨hk, hr, succeed_next h⟩
    · exact .inr (.inr ⟨hk, Nat.lt_of_not_le hr, h⟩)
  · exact .inr (.inl ⟨Bool.eq_false_of_not_eq_true hk, h⟩)

/-- A round command whose two checks hold. -/
theorem roundCommand_pass {r : Nat} {s : State} (b : Block) (hk : s.ksv = true) (hr : r ≤ s.klen.nr) :
    roundCommand r s b = .next ({ s with st := b } : State).done :=
  (check_pass hk _ _ _).trans (check_pass hr _ _ _)

theorem execPvmul_cases {s t : State} (h : execPvmul s = .next t) :
    (s.tbv = true ∧ t = ({ s with g := polyStep s.h s.g s.x } : State).done) ∨
      (s.tbv = false ∧ t = s.failed .notable) :=
  (check_next h).imp (fun ⟨hc, hg⟩ => ⟨hc, succeed_next hg⟩) fun ⟨hc, ht⟩ => ⟨Bool.eq_false_of_not_eq_true hc, ht⟩

theorem execPvfin_cases {s t : State} (h : execPvfin s = .next t) :
    (s.tbv = true ∧ s.fatal = false ∧ s.phase ≠ .final ∧ t = s.finishHash.done) ∨
      ∃ e, e ≠ .limit ∧ e ≠ .ok ∧ t = s.failed e := by
  rcases check_next h with ⟨ht, h⟩ | ⟨-, h⟩
  · rcases check_next h with ⟨hf, h⟩ | ⟨-, h⟩
    · rcases check_next h with ⟨hp, h⟩ | ⟨-, h⟩
      · exact .inl ⟨ht, hf, hp, succeed_next h⟩
      · exact .inr ⟨_, by decide, by decide, h⟩
    · exact .inr ⟨_, by decide, by decide, h⟩
  · exact .inr ⟨_, by decide, by decide, h⟩

/-- `PVUPD` absorbs with all six checks held, or fails; only the last check gives `ERR_LIMIT`. -/
theorem execPvupd_cases {ch : Channel} {n : Nat} {s t : State} (h : execPvupd ch n s = .next t) :
    (n ≤ 16 ∧ s.tbv = true ∧ s.fatal = false ∧ s.phase ≠ .final ∧ ¬(ch = .ad ∧ s.phase = .msg) ∧
        (s.chan ch).tot.toNat + n ≤ s.par.limitBytes ∧
        t = (((s.openChannel ch).absorbAll ch (bytesUpTo n s.x)).addTotal ch n).done) ∨
      ∃ e, e ≠ .ok ∧ t = s.failed e := by
  rcases check_next h with ⟨hn, h⟩ | ⟨-, h⟩
  · rcases check_next h with ⟨ht, h⟩ | ⟨-, h⟩
    · rcases check_next h with ⟨hf, h⟩ | ⟨-, h⟩
      · rcases check_next h with ⟨hp, h⟩ | ⟨-, h⟩
        · rcases check_next h with ⟨ho, h⟩ | ⟨-, h⟩
          · rcases check_next h with ⟨hl, h⟩ | ⟨-, h⟩
            · exact .inl ⟨hn, ht, hf, hp, ho, hl, succeed_next h⟩
            · exact .inr ⟨_, by decide, h⟩
          · exact .inr ⟨_, by decide, h⟩
        · exact .inr ⟨_, by decide, h⟩
      · exact .inr ⟨_, by decide, h⟩
    · exact .inr ⟨_, by decide, h⟩
  · exact .inr ⟨_, by decide, h⟩

/-- `PVUPD` with all six checks held (45_polyval_engine.md R99). -/
theorem execPvupd_pass {ch : Channel} {n : Nat} {s : State} (hn : n ≤ 16) (ht : s.tbv = true)
    (hf : s.fatal = false) (hp : s.phase ≠ .final) (ho : ¬(ch = .ad ∧ s.phase = .msg))
    (hl : (s.chan ch).tot.toNat + n ≤ s.par.limitBytes) :
    execPvupd ch n s =
      .next (((s.openChannel ch).absorbAll ch (bytesUpTo n s.x)).addTotal ch n).done := by
  unfold execPvupd
  rw [check_pass hn, check_pass ht, check_pass hf, check_pass hp, check_pass ho, check_pass hl]
  rfl

/-- Every command answers a next state: the block never stops on one (60_exceptions.md R103). -/
theorem exec_completes (i : Instr) (s : State) : ∃ t, exec i s = .next t := by
  cases i with
  | kexp kl =>
    simp only [exec, execKexp]
    split <;> exact ⟨_, rfl⟩
  | enc => exact check_completes _ _ ⟨_, rfl⟩
  | ark r | rnd r | rndl r => exact check_completes _ _ (check_completes _ _ ⟨_, rfl⟩)
  | pvupd ch n =>
    exact check_completes _ _ <| check_completes _ _ <| check_completes _ _ <| check_completes _ _ <|
      check_completes _ _ <| check_completes _ _ ⟨_, rfl⟩
  | pvmul => exact check_completes _ _ ⟨_, rfl⟩
  | pvfin => exact check_completes _ _ <| check_completes _ _ <| check_completes _ _ ⟨_, rfl⟩
  | nop | kclr | pvkey | pvinit | pvclr => exact ⟨_, rfl⟩

/-! ### Running an event -/

@[simp] theorem runWord_ok {c : Word} {i : Instr} (h : decode c = .ok i) (s : State) : runWord c s = exec i s := by
  simp [runWord, h]

@[simp] theorem runWord_illegal {c : Word} {e : DecodeError} (h : decode c = .error e) (s : State) :
    runWord c s = .next (s.failed .opcode) := by
  simp [runWord, h, fail]

@[simp] theorem regAt_cmd : regAt 0 = some .cmd := rfl

/-- A 32-bit access inside the window reaches the register at its offset (20_memory.md R39). -/
theorem target_window (p : Params) {off : Nat} (h : off < 256) :
    target p 32 (p.base + off) =
      match regAt off with
      | none => .error (.busError off)
      | some r => .ok r := by
  cases hr : regAt off <;> simp [target, h, hr]

theorem step_nil {s : State} (h : s.pending = []) : step s = .next s := by
  simp [step, performNext, h]

theorem step_cons {s : State} {e : HostEvent} {rest : List HostEvent} (h : s.pending = e :: rest) :
    step s = perform e { s with pending := rest } := by
  simp [step, performNext, h]

/-- The step at a waiting command word runs that word at the state without it. -/
theorem step_withCommand (s : State) (c : Word) : step (s.withCommand c) = runWord c s := by
  rw [step_cons (State.withCommand_pending s c)]
  have h := target_window s.par (off := 0) (by decide)
  simp only [Nat.add_zero, regAt_cmd] at h
  simp only [perform, h, writeReg, State.withCommand]

/-- What a 32-bit read at a mapped offset answers. -/
theorem reads_iff (s : State) {off : Nat} {r : Reg} (h : off < 256) (hr : regAt off = some r) (v : Word) :
    s.reads off v ↔ regRead s r = v := by
  have hs : step { s with pending := .read 32 (s.par.base + off) :: s.pending } = .next (readReg r s) := by
    rw [step_cons rfl]
    simp only [perform]
    rw [target_window _ h, hr]
  unfold State.reads
  rw [hs]
  simp only [readReg, Host.Outcome.next.injEq]
  constructor
  · intro h
    simpa using congrArg State.answers h
  · rintro rfl
    rfl

/-- What a 32-bit write at a mapped offset does. -/
theorem writes_iff (s : State) {off : Nat} {r : Reg} (h : off < 256) (hr : regAt off = some r) (v : Word)
    (t : State) : s.writes off v t ↔ writeReg r v s = .next t := by
  have hs : step { s with pending := .write 32 (s.par.base + off) v :: s.pending } = writeReg r v s := by
    rw [step_cons rfl]
    simp only [perform]
    rw [target_window _ h, hr]
  unfold State.writes
  rw [hs]

/-- Writing an illegal word to `CMD` changes `ERR` to `ERR_OPCODE` and nothing else (40_command_dispatch.md R59, R61). -/
theorem writes_illegal {c : Word} {e : DecodeError} (h : decode c = .error e) (s : State) :
    s.writes 0x00 c { s with err := .opcode } := by
  rw [writes_iff s (by decide) regAt_cmd]
  simp [writeReg, h, State.failed]

/-- One row of the opcode map gives the words of its command: `encodedAs` from the row's number, mask and operands. -/
theorem encodedAs_of_row {op : BitVec 8} {mask : Word} {command : Word → Instr} (o : Opcode)
    (hop : opcodeOf op = some o) (hmask : allowedMask o = mask) (hcommand : ∀ c, instrOf c o = command c) :
    encodedAs op mask command := by
  intro c hc
  have hf : fieldOp c = op := hc
  refine ⟨fun h => ?_, fun h => ?_⟩
  · simp only [decode, hf, hop, hmask, h, ne_eq, not_true, if_false, hcommand]
  · have hd : decode c = .error .reservedBits := by
      simp only [decode, hf, hop, hmask, h, ne_eq, not_false_iff, if_true]
    exact ⟨hd, writes_illegal hd⟩

end Sys2Proof.Machine
end

