-- ==== Sys2Proof/Laws/Hashing.lean ====
section
/-! SUPPORT. The hashing helpers `Flush` and `Absorb` (45_polyval_engine.md R96) channel by channel: which channel they change, that
they keep the totals, and that they keep a cache padded with zeros (10_state.md R33, clause 1). -/

namespace Sys2Proof.Machine

theorem emptyHasher_padded : emptyHasher.padded := fun _ _ _ => byteAt_zero _

theorem cleared_padded (c : Hasher) : ({ c with pb := 0#128, nact := 0#4 } : Hasher).padded :=
  fun _ _ _ => byteAt_zero _

/-- `Flush(ch)` leaves the other channel alone. -/
theorem State.flush_chan_other (s : State) {ch ch' : Channel} (h : ch' ≠ ch) :
    (s.flush ch).chan ch' = s.chan ch' := by
  rcases s.flush_cases ch with ⟨-, hf⟩ | ⟨-, hf⟩
  · rw [hf]
  · rw [hf, State.chan_setChan_other _ _ h]
    cases ch' <;> rfl

/-- `Flush(ch)` leaves its channel with no active byte. -/
theorem State.flush_nact (s : State) (ch : Channel) : ((s.flush ch).chan ch).nact = 0#4 := by
  rcases s.flush_cases ch with ⟨h, hf⟩ | ⟨-, hf⟩
  · rw [hf, h]
  · rw [hf, State.chan_setChan_same]

/-- `Flush` keeps every total. -/
theorem State.flush_tot (s : State) (ch ch' : Channel) : ((s.flush ch).chan ch').tot = (s.chan ch').tot := by
  by_cases h : ch' = ch
  · subst h
    rcases s.flush_cases ch' with ⟨-, hf⟩ | ⟨-, hf⟩
    · rw [hf]
    · rw [hf, State.chan_setChan_same]
  · rw [s.flush_chan_other h]

/-- `Flush` keeps the caches padded. -/
theorem State.flush_padded (s : State) (ch : Channel) (h : ∀ c, (s.chan c).padded) (ch' : Channel) :
    ((s.flush ch).chan ch').padded := by
  by_cases hc : ch' = ch
  · subst hc
    rcases s.flush_cases ch' with ⟨-, hf⟩ | ⟨-, hf⟩
    · rw [hf]
      exact h ch'
    · rw [hf, State.chan_setChan_same]
      exact cleared_padded _
  · rw [s.flush_chan_other hc]
    exact h ch'

/-- `Absorb(ch, byte)` leaves the other channel alone. -/
theorem State.absorb_chan_other (s : State) {ch ch' : Channel} (b : Byte) (h : ch' ≠ ch) :
    (s.absorb ch b).chan ch' = s.chan ch' := by
  rcases s.absorb_cases ch b with ⟨-, hf⟩ | ⟨-, hf⟩
  · rw [hf, State.chan_setChan_other _ _ h]
    cases ch' <;> rfl
  · rw [hf, State.chan_setChan_other _ _ h]

/-- `Absorb` keeps every total. -/
theorem State.absorb_tot (s : State) (ch ch' : Channel) (b : Byte) :
    ((s.absorb ch b).chan ch').tot = (s.chan ch').tot := by
  by_cases h : ch' = ch
  · subst h
    rcases s.absorb_cases ch' b with ⟨-, hf⟩ | ⟨-, hf⟩ <;> rw [hf, State.chan_setChan_same]
  · rw [s.absorb_chan_other b h]

/-- `Absorb` keeps the caches padded. -/
theorem State.absorb_padded (s : State) (ch : Channel) (b : Byte) (h : ∀ c, (s.chan c).padded) (ch' : Channel) :
    ((s.absorb ch b).chan ch').padded := by
  by_cases hc : ch' = ch
  · subst hc
    rcases s.absorb_cases ch' b with ⟨-, hf⟩ | ⟨hn, hf⟩
    · rw [hf, State.chan_setChan_same]
      exact cleared_padded _
    · rw [hf, State.chan_setChan_same]
      intro i hi hi'
      have hlt := (s.chan ch').nact.isLt
      have hnact : ((s.chan ch').nact + 1#4).toNat = (s.chan ch').nact.toNat + 1 := by
        rw [BitVec.toNat_add]
        simp
        omega
      have hi : (s.chan ch').nact.toNat + 1 ≤ i := by
        simpa [hnact] using hi
      change byteAt (setByteAt _ _ _) i = 0#8
      rw [byteAt_setByteAt _ _ _ hi', if_neg (by omega)]
      exact h ch' i (by omega) hi'
  · rw [s.absorb_chan_other b hc]
    exact h ch'

/-! ### A list of bytes -/

theorem State.absorbAll_chan_other {ch ch' : Channel} (h : ch' ≠ ch) (bs : List Byte) :
    ∀ s : State, (s.absorbAll ch bs).chan ch' = s.chan ch' := by
  induction bs with
  | nil => exact fun _ => rfl
  | cons b bs ih => exact fun s => (ih _).trans (s.absorb_chan_other b h)

theorem State.absorbAll_tot (ch ch' : Channel) (bs : List Byte) :
    ∀ s : State, ((s.absorbAll ch bs).chan ch').tot = (s.chan ch').tot := by
  induction bs with
  | nil => exact fun _ => rfl
  | cons b bs ih => exact fun s => (ih _).trans (s.absorb_tot ch ch' b)

theorem State.absorbAll_padded (ch : Channel) (bs : List Byte) :
    ∀ s : State, (∀ c, (s.chan c).padded) → ∀ ch', ((s.absorbAll ch bs).chan ch').padded := by
  induction bs with
  | nil => exact fun _ h => h
  | cons b bs ih => exact fun s h => ih _ (s.absorb_padded ch b h)

theorem State.addTotal_chan_other (s : State) {ch ch' : Channel} (n : Nat) (h : ch' ≠ ch) :
    (s.addTotal ch n).chan ch' = s.chan ch' :=
  State.chan_setChan_other _ _ h

theorem State.addTotal_chan_same (s : State) (ch : Channel) (n : Nat) :
    (s.addTotal ch n).chan ch = { s.chan ch with tot := (s.chan ch).tot + BitVec.ofNat 64 n } :=
  State.chan_setChan_same _ _ _

end Sys2Proof.Machine
end

