-- ==== Sys2Proof/Laws/PerInstr.lean ====
section
/-! SUPPORT. Statements for all commands, made one constructor at a time. EncodedFields: the word of a well-formed command has its
opcode in bits 7:0 and no bit outside its operand mask (30_encoding.md R53), so that the decoder does not call it illegal. -/

namespace Sys2Proof.Laws.EncodedFields

/-- The encoded word keeps to its opcode and its operand fields. -/
def Statement (i : Instr) : Prop :=
  i.wf = true →
    opcodeOf (fieldOp (encode i)) = some (opcodeFor i) ∧
      encode i &&& ~~~(0xFF#32 ||| allowedMask (opcodeFor i)) = 0#32

theorem nop : Statement .nop := fun _ => by decide

theorem kexp (kl : Nat) : Statement (.kexp kl) := by
  intro h
  have h' : kl < 4 := by simpa [Instr.wf] using h
  interval_cases kl <;> decide

theorem enc : Statement .enc := fun _ => by decide

theorem ark (r : Nat) : Statement (.ark r) := by
  intro h
  have h' : r < 16 := by simpa [Instr.wf] using h
  interval_cases r <;> decide

theorem rnd (r : Nat) : Statement (.rnd r) := by
  intro h
  have h' : r < 16 := by simpa [Instr.wf] using h
  interval_cases r <;> decide

theorem rndl (r : Nat) : Statement (.rndl r) := by
  intro h
  have h' : r < 16 := by simpa [Instr.wf] using h
  interval_cases r <;> decide

theorem kclr : Statement .kclr := fun _ => by decide

theorem pvkey : Statement .pvkey := fun _ => by decide

theorem pvinit : Statement .pvinit := fun _ => by decide

theorem pvupd (ch : Channel) (n : Nat) : Statement (.pvupd ch n) := by
  intro h
  have h' : n < 32 := by simpa [Instr.wf] using h
  cases ch <;> interval_cases n <;> decide

theorem pvmul : Statement .pvmul := fun _ => by decide

theorem pvfin : Statement .pvfin := fun _ => by decide

theorem pvclr : Statement .pvclr := fun _ => by decide

end Sys2Proof.Laws.EncodedFields
end

