-- ==== Sys2Proof/Tests/Slice0.lean ====
section
/-! SUPPORT. Tests. Every expected value is written out from the spec: the encodings of 30_encoding.md R53 and R57, the examples of
the command rules, and the vectors of 95_test_vectors.md (V1 to V7, S5, S6). Then, for every statement with hypotheses, a witness: a
concrete state and operands that meet all of them. -/

namespace Sys2Proof.Tests

open Sys2Proof.Machine

/-! ### WellFormed refuses what it checks (30_encoding.md R52) -/

theorem test_wf_refuses_kl_beyond_two_bits : (Instr.kexp 4).wf = false := by decide
theorem test_wf_refuses_ark_round_beyond_four_bits : (Instr.ark 16).wf = false := by decide
theorem test_wf_refuses_rnd_round_beyond_four_bits : (Instr.rnd 16).wf = false := by decide
theorem test_wf_refuses_rndl_round_beyond_four_bits : (Instr.rndl 16).wf = false := by decide
theorem test_wf_refuses_count_beyond_five_bits : (Instr.pvupd .msg 32).wf = false := by decide
theorem test_params_refuse_unaligned_base : Params.wf { base := 0x10, limitBytes := 0 } = false := by decide
theorem test_params_refuse_limit_above_range : Params.wf { base := 0, limitBytes := 2 ^ 61 - 16 } = false := by decide

/-! ### The words of the commands, bit by bit (R53, R57, V1) -/

theorem test_decode_nop : decode 0b00000000000000000000000000000000#32 = .ok .nop := by decide
theorem test_decode_kexp_256 : decode 0b00000000000000000000001000000001#32 = .ok (.kexp 2) := by decide
theorem test_decode_enc : decode 0b00000000000000000000000000000010#32 = .ok .enc := by decide
theorem test_decode_ark_10 : decode 0b00000000000000000000101000000011#32 = .ok (.ark 10) := by decide
theorem test_decode_rnd_11 : decode 0b00000000000000000000101100000100#32 = .ok (.rnd 11) := by decide
theorem test_decode_rndl_10 : decode 0b00000000000000000000101000000101#32 = .ok (.rndl 10) := by decide
theorem test_decode_kclr : decode 0b00000000000000000000000000000110#32 = .ok .kclr := by decide
theorem test_decode_pvkey : decode 0b00000000000000000000000000010000#32 = .ok .pvkey := by decide
theorem test_decode_pvinit : decode 0b00000000000000000000000000010001#32 = .ok .pvinit := by decide
theorem test_decode_pvupd_msg_8 : decode 0b00000000000010000000000100010010#32 = .ok (.pvupd .msg 8) := by decide
theorem test_decode_pvmul : decode 0b00000000000000000000000000010011#32 = .ok .pvmul := by decide
theorem test_decode_pvfin : decode 0b00000000000000000000000000010100#32 = .ok .pvfin := by decide
theorem test_decode_pvclr : decode 0b00000000000000000000000000010101#32 = .ok .pvclr := by decide
theorem test_decode_illegal_reserved_high : decode 0x80000000#32 = .error .reservedBits := by decide
theorem test_decode_illegal_kexp_bit_10 : decode 0x00000401#32 = .error .reservedBits := by decide
theorem test_decode_illegal_pvupd_bit_9 : decode 0x00000212#32 = .error .reservedBits := by decide
theorem test_decode_illegal_pvmul_operand : decode 0x00000113#32 = .error .reservedBits := by decide
theorem test_decode_unassigned : decode 0x000000FF#32 = .error .unassignedOpcode := by decide
theorem test_table_word : decodeTableWord 32 0x00100012 = some (.pvupd .ad 16) := by decide

/-! ### Helpers of the tests -/

/-- The state an answer holds; the reset state where the machine stopped. -/
def got : Result → State
  | .next s => s
  | .fault _ => .reset
  | .refused _ => .reset

/-- The state after a command. -/
def after (i : Instr) (s : State) : State := got (exec i s)

/-- Key `000102..0f` expanded, and a state block. -/
def keyed (st : Block) : State :=
  after (.kexp 0) { State.reset with key := 0x000102030405060708090a0b0c0d0e0f#128 ++ 0#128, st := st }

/-- A hash key derived and a new hash started, with `X` loaded. -/
def hashing (hk x : Block) : State := after .pvinit (after .pvkey { State.reset with hk := hk, x := x })

/-- The hash key of the RFC 8452 vector (S6). -/
def rfcKey : Block := 0x25629347589242761d31f826ba4b757b#128

/-- The first block of the RFC 8452 vector (S6). -/
def rfcX1 : Block := 0x4f4f95668c83dfb6401762bb2d01a262#128

/-! ### The AES engine (V3, V4, V5; S5) -/

theorem test_sbox_53 : sbox 0x53#8 = 0xED#8 := by decide
theorem test_gfMul8_57_13 : gfMul8 0x57#8 0x13#8 = 0xFE#8 := by decide
theorem test_shiftRows : shiftRows 0x000102030405060708090a0b0c0d0e0f#128 = 0x00050a0f04090e03080d02070c01060b#128 := by
  decide +kernel
theorem test_mixColumn : mixColumn 0xDB#8 0x13#8 0x53#8 0x45#8 = 0x8E4DA1BC#32 := by decide +kernel
theorem test_nop_clears_err : (after .nop { State.reset with err := .nokey }).err = .ok := by decide
theorem test_kexp_192_round_key_12 :
    roundKey (after (.kexp 1) { State.reset with
      key := 0x000102030405060708090a0b0c0d0e0f1011121314151617#192 ++ 0#64 }).rk 12 =
      0xa4970a331a78dc09c418c271e3a41d5d#128 := by decide +kernel
theorem test_kexp_256_last_word :
    rkWord (after (.kexp 2) { State.reset with
      key := 0x603deb1015ca71be2b73aef0857d77811f352c073b6108d72d9810a30914dff4#256 }).rk 59 = 0x706c631e#32 := by
  decide +kernel
theorem test_enc_fips_128 :
    (after .enc (keyed 0x00112233445566778899aabbccddeeff#128)).st = 0x69c4e0d86a7b0430d8cdb78070b4c55a#128 := by
  decide +kernel
theorem test_enc_without_key : (after .enc .reset).err = .nokey := by decide
theorem test_ark_0 :
    (after (.ark 0) (keyed 0x00112233445566778899aabbccddeeff#128)).st = 0x00102030405060708090a0b0c0d0e0f0#128 := by
  decide +kernel
theorem test_rnd_1 :
    (after (.rnd 1) (keyed 0x00102030405060708090a0b0c0d0e0f0#128)).st = 0x89d810e8855ace682d1843d8cb128fe4#128 := by
  decide +kernel
theorem test_rnd_11_out_of_range : statusWord (after (.rnd 11) (keyed 0#128)) = 0x00000014#32 := by decide +kernel
theorem test_rndl_10 :
    (after (.rndl 10) (keyed 0xbd6e7c3df2b5779e0b61216e8b10b689#128)).st = 0x69c4e0d86a7b0430d8cdb78070b4c55a#128 := by
  decide +kernel
theorem test_kclr_clears_status : statusWord (after .kclr (keyed rfcX1)) = 0#32 := by decide +kernel

/-! ### The POLYVAL engine (V6, V7; S6) -/

theorem test_mulX_of_ones : mulX (BitVec.allOnes 128) = 0x9effffffffffffffffffffffffffffff#128 := by decide
theorem test_divX_of_one : divX polyOne = 0xc2000000000000000000000000000001#128 := by decide
theorem test_gfmul_wraps : gfmul 1#128 (mulX polyOne) = polyR := by decide +kernel
theorem test_pvkey_table_80 :
    (after .pvkey { State.reset with hk := rfcKey }).t[0x80] = 0xdcbaa5dd137c188ebb21492c23c9b112#128 := by
  decide +kernel
theorem test_pvkey_table_ff :
    (after .pvkey { State.reset with hk := rfcKey }).t[0xff] = 0x8283ea508bb5b8e426ec4fb9f54c50c2#128 := by
  decide +kernel
theorem test_pvmul_x1 : rev (after .pvmul (hashing rfcKey rfcX1)).g = 0xcedac64537ff50989c16011551086d77#128 := by
  decide +kernel
theorem test_pvupd_full_block :
    rev (after (.pvupd .msg 16) (hashing rfcKey rfcX1)).g = 0xcedac64537ff50989c16011551086d77#128 := by
  decide +kernel
theorem test_pvupd_partial_status :
    statusWord (after (.pvupd .ad 3) (hashing rfcKey rfcX1)) = 0x00030020#32 := by decide +kernel
theorem test_pvfin_gcm_siv :
    rev (after .pvfin (after (.pvupd .msg 8)
      { after (.pvupd .ad 1) (hashing 0xd9b360279694941ac5dbc6987ada7377#128 (0x01#8 ++ 0#120)) with
        x := 0x02#8 ++ 0#120 })).g = 0xb26781e7e2c1376f96bec195f3709b2a#128 := by decide +kernel
theorem test_pvfin_twice : (after .pvfin (after .pvfin (hashing rfcKey 0#128))).err = .order := by decide +kernel
theorem test_limit_sets_fatal :
    statusWord (after (.pvupd .ad 1)
      { hashing rfcKey rfcX1 with par := { base := 0, limitBytes := 0 } }) = 0x00000128#32 := by decide +kernel
theorem test_pvinit_clears_fatal :
    (after .pvinit { State.reset with fatal := true, phase := .final }).fatal = false := by decide
theorem test_pvclr_clears_status : statusWord (after .pvclr (hashing rfcKey rfcX1)) = 0#32 := by decide +kernel

/-! ### The window (V2) -/

theorem test_tidx_drops_high_bits :
    regRead (regWrite .reset .tidx 0x00001234#32) .tidx = 0x00000034#32 := by decide
theorem test_key_lane : (regWrite .reset (.key 0) 0x03020100#32).key.extractLsb' 224 32 = 0x00010203#32 := by
  decide +kernel
theorem test_lane_of_table_entry : lane 0xdcbaa5dd137c188ebb21492c23c9b112#128 0 = 0xdda5badc#32 := by decide
theorem test_map : regAt 0x2C = some (.key 7) ∧ regAt 0x5C = some (.hk 3) ∧ regAt 0x6C = some (.acc 3) ∧
    regAt 0x7C = some (.totHi .msg) ∧ regAt 0x90 = some (.tdat 3) ∧ regAt 0x08 = none ∧ regAt 0x94 = none ∧
    regAt 0x42 = none := by decide
theorem test_fetch_runs_the_word :
    got (step (State.reset.withFetchWord 32 0x00000301)) = { State.reset with err := .keylen } := by decide +kernel

/-! ### Witnesses: each statement's hypotheses are met together -/

/-- `KSV = 1` with `KLEN` as given. -/
def withSchedule (kl : KeyLen) : State := { State.reset with ksv := true, klen := kl }

/-- `TBV = 1`, with the zero hash key. -/
def withTable : State := { State.reset with tbv := true }

/-- The premises of `encodedAs` are met: `legal` has the opcode and no bit outside the mask, `illegal` the opcode and such a bit. -/
def encodedBoth (op : BitVec 8) (mask legal illegal : Word) : Prop :=
  (legal.extractLsb' 0 8 = op ∧ legal &&& ~~~(0xFF#32 ||| mask) = 0#32) ∧
    (illegal.extractLsb' 0 8 = op ∧ illegal &&& ~~~(0xFF#32 ||| mask) ≠ 0#32)

theorem both_nop : encodedBoth 0x00#8 0#32 0x00000000#32 0x80000000#32 := by simp [encodedBoth]
theorem both_kexp : encodedBoth 0x01#8 0x300#32 0x00000301#32 0x00000401#32 := by simp [encodedBoth]
theorem both_enc : encodedBoth 0x02#8 0#32 0x00000002#32 0x00000102#32 := by simp [encodedBoth]
theorem both_ark : encodedBoth 0x03#8 0xF00#32 0x00000F03#32 0x00001003#32 := by simp [encodedBoth]
theorem both_rnd : encodedBoth 0x04#8 0xF00#32 0x00000F04#32 0x00001004#32 := by simp [encodedBoth]
theorem both_rndl : encodedBoth 0x05#8 0xF00#32 0x00000F05#32 0x00001005#32 := by simp [encodedBoth]
theorem both_kclr : encodedBoth 0x06#8 0#32 0x00000006#32 0x00000106#32 := by simp [encodedBoth]
theorem both_pvkey : encodedBoth 0x10#8 0#32 0x00000010#32 0x00000110#32 := by simp [encodedBoth]
theorem both_pvinit : encodedBoth 0x11#8 0#32 0x00000011#32 0x00000111#32 := by simp [encodedBoth]
theorem both_pvupd : encodedBoth 0x12#8 0x1F0100#32 0x001F0112#32 0x00200012#32 := by simp [encodedBoth]
theorem both_pvmul : encodedBoth 0x13#8 0#32 0x00000013#32 0x00000113#32 := by simp [encodedBoth]
theorem both_pvfin : encodedBoth 0x14#8 0#32 0x00000014#32 0x00010014#32 := by simp [encodedBoth]
theorem both_pvclr : encodedBoth 0x15#8 0#32 0x00000015#32 0x00000115#32 := by simp [encodedBoth]

theorem witness_KexpRefusesInvalidLength : encodedBoth 0x01#8 0x300#32 0x00000301#32 0x00000401#32 := both_kexp

theorem witness_PvkeyDerivesHashKeyAndTable : encodedBoth 0x10#8 0#32 0x00000010#32 0x00000110#32 := both_pvkey

theorem witness_PvinitStartsNewHash : encodedBoth 0x11#8 0#32 0x00000011#32 0x00000111#32 := both_pvinit

theorem witness_ReadsReturnTheRegisters : (7 : Nat) < 8 ∧ (3 : Nat) < 4 := by decide

theorem witness_DecodeOfEncodeIsIdentity :
    (Instr.kexp 3).wf = true ∧ (Instr.rnd 15).wf = true ∧ (Instr.pvupd .msg 31).wf = true := by decide

theorem witness_LegalWordIsItsEncoding : decode 0x001F0112#32 = .ok (.pvupd .msg 31) := by decide

theorem witness_DecodeFollowsOpcodeMap :
    (((0x07#32).extractLsb' 0 8).toNat ∉ [0x00, 0x01, 0x02, 0x03, 0x04, 0x05, 0x06] ∧
      ((0x07#32).extractLsb' 0 8).toNat ∉ [0x10, 0x11, 0x12, 0x13, 0x14, 0x15]) ∧
      encodedBoth 0x12#8 0x1F0100#32 0x001F0112#32 0x00200012#32 ∧
      ((withSchedule .k256).ksv = true ∧ 10 + 2 * (withSchedule .k256).klen.num < 15 ∧
        Instr.rnd 15 ∈ [Instr.ark 15, .rnd 15, .rndl 15]) ∧
      16 < 17 :=
  ⟨by decide, both_pvupd, by decide, by decide⟩

theorem witness_StepRunsDecodedCommand :
    (State.reset.withCommand 0x10#32).pending = .write 32 State.reset.par.base 0x10#32 :: [] ∧
      decode 0x10#32 = .ok .pvkey ∧ decode 0x07#32 = .error .unassignedOpcode := by decide

theorem witness_StepTakesOneEvent :
    step (State.reset.withCommand 0#32) = .next State.reset ∧ step State.reset = .next State.reset ∧
      State.reset.pending = [] := ⟨rfl, rfl, rfl⟩

theorem witness_WritesChangeTheNamedBytes :
    decode 0x00#32 = .ok .nop ∧ exec .nop State.reset = .next State.reset ∧
      decode 0x80000000#32 = .error .reservedBits := ⟨by decide, rfl, by decide⟩

theorem witness_BusErrorExactlyOnIllegalAccess :
    (0x08 < 256 ∧ ¬(32 = 32 ∧ mappedOffset 0x08)) ∧ (0x42 < 256 ∧ ¬(32 = 32 ∧ mappedOffset 0x42)) ∧
      (0x94 < 256 ∧ ¬(32 = 32 ∧ mappedOffset 0x94)) ∧ (0xFF < 256 ∧ ¬(32 = 32 ∧ mappedOffset 0xFF)) ∧
      (0x30 < 256 ∧ ¬(16 = 32 ∧ mappedOffset 0x30)) ∧
      (0x00 < 256 ∧ 32 = 32 ∧ mappedOffset 0x00) ∧ (0x10 < 256 ∧ 32 = 32 ∧ mappedOffset 0x10) ∧
      (0x90 < 256 ∧ 32 = 32 ∧ mappedOffset 0x90) := by
  simp [mappedOffset]

theorem witness_LegalHostNeverStops :
    ∀ e ∈ ({ State.reset with pending := [.write 32 0 7#32, .read 32 4, .rst, .read 32 0x90] } : State).pending,
      e.legal State.reset.par := by
  simp [HostEvent.legal, mappedOffset, State.reset, resetParams]

theorem witness_WrittenRegistersReadBack :
    (3 : Nat) < 4 ∧ (0 : Nat) ≠ 3 ∧ State.reset.reads (0x30 + 4 * 0) 0#32 ∧ State.reset.reads (0x40 + 4 * 0) 0#32 := by
  refine ⟨by decide, by decide, ?_, ?_⟩
  · exact (reads_iff _ (by decide) (r := .st 0) rfl _).2 (by decide)
  · exact (reads_iff _ (by decide) (r := .x 0) rfl _).2 (by decide)

theorem witness_SecretsCannotBeReadBack : State.reset.reads 0x04 0#32 ∧ State.reset.reads 0x10 0#32 :=
  ⟨(reads_iff _ (by decide) (r := .status) rfl _).2 (by decide),
    (reads_iff _ (by decide) (r := .key 0) rfl _).2 rfl⟩

theorem witness_ResetInputRestoresResetValues :
    ({ withSchedule .k256 with pending := [.rst] } : State).pending = .rst :: [] := rfl

theorem witness_FailingCommandChangesOnlyErr_illegal : decode 0x80000000#32 = .error .reservedBits :=
  by decide

theorem witness_FailingCommandChangesOnlyErr :
    (exec .enc .reset = .next { State.reset with err := .nokey } ∧ ErrCode.nokey ≠ .ok ∧ ErrCode.nokey ≠ .limit) ∧
      exec (.pvupd .ad 1) { withTable with par := { base := 0, limitBytes := 0 } } =
        .next { withTable with par := { base := 0, limitBytes := 0 }, err := .limit, fatal := true } :=
  ⟨⟨rfl, by decide, by decide⟩, rfl⟩

theorem witness_ErrorPriorityFollowsCheckOrder_words : decode 0x80000000#32 = .error .reservedBits ∧ decode 0#32 = .ok .nop ∧
    exec .nop State.reset = .next State.reset :=
  ⟨by decide, by decide, rfl⟩

theorem witness_ErrorPriorityFollowsCheckOrder :
    Instr.pvclr ∈ [Instr.nop, .kclr, .pvkey, .pvinit, .pvclr] ∧ 3 < 4 ∧
      Instr.rndl 15 ∈ [Instr.ark 15, .rnd 15, .rndl 15] := by decide

theorem witness_FatalStaysUntilCleared :
    (({ State.reset with fatal := true, tbv := true } : State).fatal = true ∧
      ({ State.reset with fatal := true, tbv := true } : State).tbv = true ∧ 16 ≤ 16) ∧
      (∃ t, exec .pvmul { State.reset with fatal := true, tbv := true } = .next t) ∧
      (Instr.pvmul ≠ .pvinit ∧ Instr.pvmul ≠ .pvclr) ∧
      exec (.pvupd .ad 1) { withTable with par := { base := 0, limitBytes := 0 } } =
        .next { withTable with par := { base := 0, limitBytes := 0 }, err := .limit, fatal := true } ∧
      withTable.fatal = false :=
  ⟨⟨rfl, rfl, by decide⟩, ⟨_, rfl⟩, by decide, rfl, rfl⟩

theorem witness_NopOnlyClearsErr : (0x80000000#32).extractLsb' 0 8 = 0#8 ∧ 0x80000000#32 ≠ 0#32 := by decide

theorem witness_RoundTransformationsByByte : (3 < 4 ∧ 15 < 16) ∧ 15 = 3 + 4 * 3 := by decide

theorem witness_RoundsAgreeOnEqualBytes : ∀ i, i < 16 → byteAt (blockOf fun _ => 0x63#8) i = byteAt (blockOf fun _ => 0x63#8) 0 := by
  intro i hi
  rw [byteAt_blockOf _ hi, byteAt_blockOf _ (by decide)]

theorem witness_KexpWritesTheExpandedKey :
    (2, KeyLen.k256) ∈ [(0, KeyLen.k128), (1, KeyLen.k192), (2, KeyLen.k256)] ∧
      (7 < 4 + 2 * 2 ∧ 3 < 4) ∧ (4 + 2 * 2 ≤ 59 ∧ 59 < 4 * (10 + 2 * 2 + 1)) ∧
      (4 * (10 + 2 * 0 + 1) ≤ 44 ∧ 44 < 60) := by decide

theorem witness_ScheduleIgnoresUnusedKeyBytes :
    ∀ i, i < 4 * (4 + 2 * KeyLen.k128.num) → keyByteAt 0#256 i = keyByteAt 1#256 i := by decide

theorem witness_KclrZeroizesAesEngine_encoding : encodedBoth 0x06#8 0#32 0x00000006#32 0x00000106#32 :=
  both_kclr

theorem witness_KclrZeroizesAesEngine :
    exec .kclr (withSchedule .k192) = .next .reset ∧ (∀ kl, Instr.kexp kl ∉ [Instr.nop, .pvinit]) ∧
      runCommands [.nop, .pvinit] .reset = .next .reset ∧ Instr.rnd 3 ∈ [Instr.enc, .ark 3, .rnd 3, .rndl 3] :=
  ⟨rfl, fun _ => by simp, rfl, by decide⟩

theorem witness_RoundKeyIsFourWords : (14 : Nat) ≤ 14 ∧ (15 : Nat) < 16 := by decide

theorem witness_CipherIsItsRounds : 1 ≤ 10 ∧ (1 ≤ 9 ∧ 9 ≤ 10 - 1) := by decide

theorem witness_EncEncryptsTheStateBlock_encoding : encodedBoth 0x02#8 0#32 0x00000002#32 0x00000102#32 :=
  both_enc

theorem witness_EncEncryptsTheStateBlock : (withSchedule .k128).ksv = true ∧ State.reset.ksv = false := ⟨rfl, rfl⟩

theorem witness_RoundCommandsUseRoundKey_encoding : encodedBoth 0x03#8 0xF00#32 0x00000F03#32 0x00001003#32 ∧
    encodedBoth 0x04#8 0xF00#32 0x00000F04#32 0x00001004#32 ∧
    encodedBoth 0x05#8 0xF00#32 0x00000F05#32 0x00001005#32 :=
  ⟨both_ark, both_rnd, both_rndl⟩

theorem witness_RoundCommandsUseRoundKey :
    ((withSchedule .k256).ksv = true ∧ 14 ≤ 10 + 2 * (withSchedule .k256).klen.num ∧
      10 + 2 * (withSchedule .k256).klen.num < 15) ∧
      State.reset.ksv = false ∧ Instr.rnd 15 ∈ [Instr.ark 15, .rnd 15, .rndl 15] := by decide

theorem witness_EncEqualsItsRoundCommands : (withSchedule .k256).ksv = true := rfl

theorem witness_CipherCommandsIgnoreKeyRegister :
    Instr.ark 0 ∈ [Instr.enc, .ark 0, .rnd 0, .rndl 0] ∧ exec (.ark 0) (withSchedule .k128) = .next (withSchedule .k128) :=
  ⟨by decide, rfl⟩

theorem witness_MulXMultipliesByX : (0 : Nat) < 128 ∧ (127 : Nat) < 128 := by decide

theorem witness_TableFollowsRecurrence : (254 + 1 < 256 ∧ 2 ≤ 254 ∧ 254 % 2 = 0) ∧ (2 + 1 < 256 ∧ 2 ≤ 2 ∧ 2 % 2 = 0) := by
  decide

theorem witness_LengthsBlockHoldsBothBitLengths :
    (1#64).toNat < 2 ^ 61 ∧ (BitVec.ofNat 64 (2 ^ 61 - 1)).toNat < 2 ^ 61 ∧ 7 < 8 := by decide

theorem witness_PvkeyDerivesHashKeyAndTable_zero : State.reset.hk = 0#128 := rfl

theorem witness_PvmulStepsAccumulator_encoding : encodedBoth 0x13#8 0#32 0x00000013#32 0x00000113#32 :=
  both_pvmul

theorem witness_PvmulStepsAccumulator : withTable.tbv = true ∧ State.reset.tbv = false := ⟨rfl, rfl⟩

/-- A message channel with `a` zero bytes cached. -/
def withCached (a : BitVec 4) : State :=
  { withTable with phase := .msg, msg := { pb := 0#128, nact := a, tot := 5#64 } }

theorem witness_PvupdAbsorbsBytesInOrder :
    (16 ≤ 16 ∧ (withCached 15#4).tbv = true ∧ (withCached 15#4).fatal = false ∧ (withCached 15#4).phase = .msg ∧
      ((withCached 15#4).chan .msg).tot.toNat + 16 ≤ (withCached 15#4).par.limitBytes ∧
      16 ≤ ((withCached 15#4).chan .msg).nact.toNat + 16 ∧ ((withCached 7#4).chan .msg).nact.toNat + 8 < 16) ∧
      ((withCached 15#4).chan .msg).padded ∧ ((withCached 7#4).chan .msg).padded :=
  ⟨by decide, fun _ _ _ => byteAt_zero _, fun _ _ _ => byteAt_zero _⟩

theorem witness_FirstMessageDataFlushesAssociatedData :
    (0 ≤ 16 ∧ withTable.tbv = true ∧ withTable.fatal = false ∧ withTable.phase = .ad ∧
      withTable.msg.tot.toNat + 0 ≤ withTable.par.limitBytes ∧ withTable.ad.nact = 0#4) ∧
      ({ withTable with ad := { pb := 0#128, nact := 3#4, tot := 3#64 } } : State).ad.nact ≠ 0#4 := by decide

theorem witness_SplitUpdatesAbsorbTheSame :
    7 + 9 ≤ 16 ∧ exec (.pvupd .ad (7 + 9)) withTable =
      .next (((withTable.openChannel .ad).absorbAll .ad (bytesUpTo (7 + 9) withTable.x)).addTotal .ad (7 + 9)).done ∧
      (((withTable.openChannel .ad).absorbAll .ad (bytesUpTo (7 + 9) withTable.x)).addTotal .ad (7 + 9)).done.err = .ok :=
  ⟨by decide, execPvupd_pass (by decide) rfl rfl (by decide) (by decide) (by decide), rfl⟩

theorem witness_PvfinCompletesTheHash_encoding : encodedBoth 0x14#8 0#32 0x00000014#32 0x00010014#32 :=
  both_pvfin

theorem witness_PvfinCompletesTheHash :
    (withTable.tbv = true ∧ withTable.fatal = false ∧ withTable.phase ≠ .final) ∧ State.reset.tbv = false ∧
      ({ withTable with fatal := true } : State).fatal = true ∧ ({ withTable with phase := .final } : State).phase = .final := by
  decide

theorem witness_PvclrZeroizesPolyvalEngine_encoding : encodedBoth 0x15#8 0#32 0x00000015#32 0x00000115#32 :=
  both_pvclr

theorem witness_PvclrZeroizesPolyvalEngine :
    exec .pvclr withTable = .next .reset ∧ Instr.pvkey ∉ [Instr.nop, .pvinit] ∧
      runCommands [.nop, .pvinit] .reset = .next .reset ∧ 16 ≤ 16 ∧
      Instr.pvupd .msg 16 ∈ [Instr.pvupd .msg 16, .pvmul, .pvfin] :=
  ⟨rfl, by decide, rfl, by decide, by decide⟩

theorem witness_HashingIgnoresHashKeyRegister :
    Instr.pvmul ∈ [Instr.pvupd .ad 0, .pvmul, .pvfin, .pvinit] ∧ ∃ t, exec .pvmul withTable = .next t :=
  ⟨by decide, _, rfl⟩

theorem witness_EnginesAreIndependent :
    (exec .kclr withTable = .next withTable ∧ isAes .kclr = true) ∧
      exec .pvclr (withSchedule .k256) = .next (withSchedule .k256) ∧ isPolyval .pvclr = true :=
  ⟨⟨rfl, rfl⟩, rfl, rfl⟩

theorem witness_RegistersChangedOnlyByTheirCommands :
    exec .nop State.reset = .next State.reset ∧ Instr.nop ≠ .kclr ∧ (∀ kl, Instr.nop ≠ .kexp kl) ∧
      (exec (.kexp 0) State.reset =
          .next { State.reset with rk := scheduleFile .k128 0#256, ksv := true } ∧ State.reset.ksv = false) ∧
      exec .pvkey State.reset =
        .next { State.reset with h := hashKey 0#128, t := table (hashKey 0#128), tbv := true } ∧
      State.reset.tbv = false :=
  ⟨rfl, by decide, fun _ => by simp, ⟨rfl, rfl⟩, rfl, rfl⟩

theorem witness_PhaseMovesOnlyForward :
    step (({ withTable with phase := .final } : State).withCommand 0x11#32) = .next withTable :=
  (step_withCommand _ _).trans rfl

/-- A state in use with a command waiting, beside the reset state. -/
theorem witness_InvariantKeptByEveryStep :
    ((withSchedule .k192).withCommand 0x02#32).Inv ∧
      ∃ t, step ((withSchedule .k192).withCommand 0x02#32) = .next t := by
  refine ⟨⟨by decide, ?_, ?_, ?_, ?_, ?_, ?_, ?_, ?_⟩, ?_⟩
  · intro ch
    cases ch <;> exact emptyHasher_padded
  · intro ch
    cases ch <;> decide
  · simp [withSchedule, State.reset]
  · simp [withSchedule, State.reset]
  · simp [withSchedule]
  · exact fun _ => ⟨rfl, rfl⟩
  · exact fun _ => rfl
  · exact fun _ => ⟨rfl, rfl⟩
  · rw [step_withCommand]
    exact ⟨_, rfl⟩

theorem witness_ScheduleKeptByEveryStep :
    ((after (.kexp 1) State.reset).withCommand 0x06#32).ScheduleHeld ∧
      ∃ t, step ((after (.kexp 1) State.reset).withCommand 0x06#32) = .next t := by
  refine ⟨fun _ => ⟨0#256, rfl⟩, ?_⟩
  rw [step_withCommand]
  exact ⟨_, rfl⟩

end Sys2Proof.Tests
end

namespace Sys2Proof.Machine

/-! ## What a command and a step can do

Said once, with named cases; the invariants below are case analyses over these two relations. -/

/-- The commands that make no check (60_exceptions.md R107). -/
def uncheckedCommands : List Instr := [.nop, .kclr, .pvkey, .pvinit, .pvclr]

/-- `Executed s i t`: what the command `i` can do at `s` (40_command_dispatch.md R59 to R63). It fails, or it succeeds with its
effect. For the cipher commands the block left in `ST` is not named: `execEnc_cases` and `roundCommand_cases` name it. -/
inductive Executed (s : State) : Instr → State → Prop where
  | failed {i : Instr} {e : ErrCode} (hi : i ∉ uncheckedCommands) (he : e = .limit → ∃ ch n, i = .pvupd ch n) :
      Executed s i (s.failed e)
  | nop : Executed s .nop s.done
  | kexp {kl : Nat} {k : KeyLen} (hk : keyLenOf kl = some k) :
      Executed s (.kexp kl) ({ s with rk := scheduleFile k s.key, ksv := true, klen := k } : State).done
  | cipher {i : Instr} {b : Block} (hi : i = .enc ∨ ∃ r, i = .ark r ∨ i = .rnd r ∨ i = .rndl r)
      (hk : s.ksv = true) : Executed s i ({ s with st := b } : State).done
  | kclr : Executed s .kclr
      ({ s with key := 0#256, rk := Vector.replicate 60 0#32, st := 0#128, ksv := false, klen := .k128 } : State).done
  | pvkey : Executed s .pvkey ({ s with h := hashKey s.hk, t := table (hashKey s.hk), tbv := true } : State).done
  | pvinit : Executed s .pvinit s.emptyHash.done
  | pvupd {ch : Channel} {n : Nat} (ht : s.tbv = true) (hf : s.fatal = false) (hp : s.phase ≠ .final)
      (ho : ¬(ch = .ad ∧ s.phase = .msg)) (hl : (s.chan ch).tot.toNat + n ≤ s.par.limitBytes) :
      Executed s (.pvupd ch n) (((s.openChannel ch).absorbAll ch (bytesUpTo n s.x)).addTotal ch n).done
  | pvmul (ht : s.tbv = true) : Executed s .pvmul ({ s with g := polyStep s.h s.g s.x } : State).done
  | pvfin (ht : s.tbv = true) (hf : s.fatal = false) (hp : s.phase ≠ .final) : Executed s .pvfin s.finishHash.done
  | pvclr : Executed s .pvclr
      ({ s.emptyHash with
          hk := 0#128, x := 0#128, h := 0#128, t := Vector.replicate 256 0#128, tbv := false, tidx := 0#8 } : State).done

/-- Only `PVUPD` fails with `ERR_LIMIT`: with another code there is nothing to say of the command. -/
theorem Executed.failed_of_ne {s : State} {i : Instr} {e : ErrCode} (hi : i ∉ uncheckedCommands) (he : e ≠ .limit) :
    Executed s i (s.failed e) :=
  .failed hi fun h => absurd h he

/-- The three round commands share their checks (43_aes_cipher.md R81). -/
theorem executed_of_roundCommand {i : Instr} {r : Nat} {s t : State} {b : Block}
    (hi : i = .ark r ∨ i = .rnd r ∨ i = .rndl r) (h : roundCommand r s b = .next t) : Executed s i t := by
  have hchecked : i ∉ uncheckedCommands := by rcases hi with rfl | rfl | rfl <;> simp [uncheckedCommands]
  rcases roundCommand_cases h with ⟨hk, -, rfl⟩ | ⟨-, rfl⟩ | ⟨-, -, rfl⟩
  · exact .cipher (.inr ⟨r, hi⟩) hk
  · exact .failed_of_ne hchecked (by decide)
  · exact .failed_of_ne hchecked (by decide)

theorem executed_of_exec {i : Instr} {s t : State} (h : exec i s = .next t) : Executed s i t := by
  cases i with
  | nop => exact succeed_next h ▸ .nop
  | kexp kl =>
    rcases execKexp_cases h with ⟨-, rfl⟩ | ⟨k, hk, rfl⟩
    · exact .failed_of_ne (by simp [uncheckedCommands]) (by decide)
    · exact .kexp hk
  | enc =>
    rcases execEnc_cases h with ⟨hk, rfl⟩ | ⟨-, rfl⟩
    · exact .cipher (.inl rfl) hk
    · exact .failed_of_ne (by simp [uncheckedCommands]) (by decide)
  | ark r => exact executed_of_roundCommand (.inl rfl) h
  | rnd r => exact executed_of_roundCommand (.inr (.inl rfl)) h
  | rndl r => exact executed_of_roundCommand (.inr (.inr rfl)) h
  | kclr => exact succeed_next h ▸ .kclr
  | pvkey => exact succeed_next h ▸ .pvkey
  | pvinit => exact succeed_next h ▸ .pvinit
  | pvupd ch n =>
    rcases execPvupd_cases h with ⟨-, ht, hf, hp, ho, hl, rfl⟩ | ⟨e, -, rfl⟩
    · exact .pvupd ht hf hp ho hl
    · exact .failed (by simp [uncheckedCommands]) fun _ => ⟨ch, n, rfl⟩
  | pvmul =>
    rcases execPvmul_cases h with ⟨ht, rfl⟩ | ⟨-, rfl⟩
    · exact .pvmul ht
    · exact .failed_of_ne (by simp [uncheckedCommands]) (by decide)
  | pvfin =>
    rcases execPvfin_cases h with ⟨ht, hf, hp, rfl⟩ | ⟨e, he, -, rfl⟩
    · exact .pvfin ht hf hp
    · exact .failed_of_ne (by simp [uncheckedCommands]) he
  | pvclr => exact succeed_next h ▸ .pvclr

/-- Of the word indices only 0 is `CMD` (20_memory.md R36). -/
theorem eq_zero_of_regOfIndex_cmd {k : Nat} (h : regOfIndex k = some .cmd) : k = 0 := by
  simpa [regOfIndex, ite_eq_iff] using h

theorem eq_zero_of_regAt_cmd {off : Nat} (h : regAt off = some .cmd) : off = 0 := by
  unfold regAt at h
  split at h
  · have hk := eq_zero_of_regOfIndex_cmd h
    omega
  · cases h

/-- An access that reaches a register is a 32-bit access inside the window (20_memory.md R39). -/
theorem target_ok {p : Params} {bits addr : Nat} {r : Reg} (h : target p bits addr = .ok r) :
    bits = 32 ∧ ∃ off, addr = p.base + off ∧ regAt off = some r := by
  unfold target at h
  split at h
  · cases h
  · split at h
    · cases h
    · split at h
      · cases h
      · next hr =>
        cases h
        exact ⟨by omega, addr - p.base, by omega, hr⟩

/-- `Performed s e t`: what the event `e` can do at `s` when it completes (20_memory.md R39, R41, R42; 70_reset_and_hazards.md
R121). -/
inductive Performed (s : State) : HostEvent → State → Prop where
  | rst : Performed s .rst s.afterReset
  | read {bits addr : Nat} {r : Reg} (hr : target s.par bits addr = .ok r) :
      Performed s (.read bits addr) (readReg r s)
  | write {bits addr : Nat} {r : Reg} {v : Word} (hr : target s.par bits addr = .ok r) (hc : r ≠ .cmd) :
      Performed s (.write bits addr v) (regWrite s r v)
  | illegal {c : Word} {e : DecodeError} (hd : decode c = .error e) :
      Performed s (.write 32 s.par.base c) (s.failed .opcode)
  | command {c : Word} {i : Instr} {t : State} (hd : decode c = .ok i) (ht : Executed s i t) :
      Performed s (.write 32 s.par.base c) t

theorem performed_of_runWord {c : Word} {s t : State} (h : runWord c s = .next t) :
    Performed s (.write 32 s.par.base c) t := by
  cases hd : decode c with
  | error e =>
    rw [runWord_illegal hd] at h
    cases h
    exact .illegal hd
  | ok i => exact .command hd (executed_of_exec (runWord_ok hd s ▸ h))

theorem performed_of_perform {e : HostEvent} {s t : State} (h : perform e s = .next t) : Performed s e t := by
  cases e with
  | rst =>
    cases h
    exact .rst
  | read bits addr =>
    simp only [perform] at h
    split at h
    · cases h
    · next hr =>
      cases h
      exact .read hr
  | write bits addr v =>
    simp only [perform] at h
    split at h
    · cases h
    · next r hr =>
      cases r with
      | cmd =>
        obtain ⟨rfl, off, rfl, hcmd⟩ := target_ok hr
        obtain rfl := eq_zero_of_regAt_cmd hcmd
        exact performed_of_runWord h
      | _ =>
        cases h
        exact .write hr nofun

/-- A step: no event waits and nothing changes, or the oldest event is performed (20_memory.md R46). -/
theorem step_cases {s t : State} (h : step s = .next t) :
    (s.pending = [] ∧ t = s) ∨ ∃ e rest, s.pending = e :: rest ∧ Performed { s with pending := rest } e t := by
  cases hp : s.pending with
  | nil => exact .inl ⟨rfl, by simpa using ((step_nil hp).symm.trans h).symm⟩
  | cons e rest => exact .inr ⟨e, rest, rfl, performed_of_perform ((step_cons hp).symm.trans h)⟩

/-- A predicate that every kind of event keeps is kept by every step. -/
theorem step_keeps {P : State → Prop} (taken : ∀ s rest, P s → P { s with pending := rest })
    (rst : ∀ s, P s → P s.afterReset) (read : ∀ s r, P s → P (readReg r s))
    (write : ∀ s r v, P s → P (regWrite s r v)) (illegal : ∀ s, P s → P (s.failed .opcode))
    (command : ∀ s i t, P s → Executed s i t → P t)
    {s t : State} (hs : P s) (h : step s = .next t) : P t := by
  rcases step_cases h with ⟨-, rfl⟩ | ⟨e, rest, -, hperf⟩
  · exact hs
  · have hs := taken s rest hs
    cases hperf with
    | rst => exact rst _ hs
    | read => exact read _ _ hs
    | write => exact write _ _ _ hs
    | illegal => exact illegal _ hs
    | command _ ht => exact command _ _ _ hs ht

end Sys2Proof.Machine

namespace Sys2Proof.Machine

/-! ## The machine invariant (10_state.md R33) -/

/-- The invariant does not speak of `KEY`, `ST`, `X`, `HK`, `G`, `FATAL`, `ERR`, `TIDX`, the waiting events or the answers. -/
theorem State.Inv.with_unseen {s : State} (hs : s.Inv) (key : KeyStr) (st x hk g : Block) (fatal : Bool) (err : ErrCode)
    (tidx : BitVec 8) (pending : List HostEvent) (answers : List Word) :
    State.Inv { s with key := key, st := st, x := x, hk := hk, g := g, fatal := fatal, err := err, tidx := tidx,
                       pending := pending, answers := answers } :=
  { hs with }

theorem State.Inv.done {s : State} (hs : s.Inv) : s.done.Inv := hs.with_unseen ..

theorem State.Inv.failed {s : State} (hs : s.Inv) (e : ErrCode) : (s.failed e).Inv := hs.with_unseen ..

theorem State.Inv.regWrite {s : State} (hs : s.Inv) (r : Reg) (v : Word) : (regWrite s r v).Inv := by
  cases r <;> exact hs.with_unseen ..

/-- Empty channels in phase `AD` satisfy what the invariant says of the hash. -/
theorem State.Inv.emptyHash {s : State} (hs : s.Inv) : s.emptyHash.Inv :=
  { hs with
    padding := fun ch => by cases ch <;> exact emptyHasher_padded
    totals := fun ch => by cases ch <;> exact Nat.zero_le _
    phaseAd := fun _ => ⟨rfl, rfl⟩
    phaseMsg := nofun
    phaseFinal := nofun }

theorem State.afterReset_inv {s : State} (hpar : s.par.wf = true) : s.afterReset.Inv where
  params := hpar
  padding ch := by cases ch <;> exact emptyHasher_padded
  totals ch := by cases ch <;> exact Nat.zero_le _
  tableValid := nofun
  tableCleared _ := ⟨rfl, rfl⟩
  scheduleCleared _ := ⟨rfl, rfl⟩
  phaseAd _ := ⟨rfl, rfl⟩
  phaseMsg := nofun
  phaseFinal := nofun

/-! ### Completing a channel -/

/-- `Flush` leaves no active byte where there was none. -/
theorem State.flush_nact_of_zero {s : State} {ch' : Channel} (h : (s.chan ch').nact = 0#4) (ch : Channel) :
    ((s.flush ch).chan ch').nact = 0#4 := by
  by_cases hc : ch' = ch
  · exact hc ▸ s.flush_nact ch'
  · rw [s.flush_chan_other hc, h]

theorem State.Inv.flush {s : State} (hs : s.Inv) (ch : Channel) : (s.flush ch).Inv where
  params := by simpa using hs.params
  padding := s.flush_padded ch hs.padding
  totals ch' := by simpa [s.flush_tot] using hs.totals ch'
  tableValid := by simpa using hs.tableValid
  tableCleared := by simpa using hs.tableCleared
  scheduleCleared := by simpa using hs.scheduleCleared
  phaseAd hp := by
    obtain ⟨hn, ht⟩ := hs.phaseAd (by simpa using hp)
    exact ⟨State.flush_nact_of_zero (ch' := .msg) hn ch, (s.flush_tot ch .msg).trans ht⟩
  phaseMsg hp := State.flush_nact_of_zero (ch' := .ad) (hs.phaseMsg (by simpa using hp)) ch
  phaseFinal hp := by
    obtain ⟨hn, hn'⟩ := hs.phaseFinal (by simpa using hp)
    exact ⟨State.flush_nact_of_zero (ch' := .ad) hn ch, State.flush_nact_of_zero (ch' := .msg) hn' ch⟩

/-- Message data may start once no associated data is cached. -/
theorem State.Inv.startMessage {s : State} (hs : s.Inv) (hn : s.ad.nact = 0#4) : State.Inv { s with phase := .msg } :=
  { hs with phaseAd := nofun, phaseMsg := fun _ => hn, phaseFinal := nofun }

/-- The hash may be final once nothing is cached. -/
theorem State.Inv.finish {s : State} (hs : s.Inv) (hn : s.ad.nact = 0#4) (hn' : s.msg.nact = 0#4) :
    State.Inv { s with phase := .final } :=
  { hs with phaseAd := nofun, phaseMsg := nofun, phaseFinal := fun _ => ⟨hn, hn'⟩ }

theorem State.Inv.openChannel {s : State} (hs : s.Inv) (ch : Channel) : (s.openChannel ch).Inv := by
  rcases s.openChannel_cases ch with ⟨-, -, h⟩ | ⟨-, h⟩ <;> rw [h]
  · exact (hs.flush .ad).startMessage (s.flush_nact .ad)
  · exact hs

theorem State.Inv.finishHash {s : State} (hs : s.Inv) : s.finishHash.Inv := by
  have hn : ((s.flush .ad).flush .msg).ad.nact = 0#4 := State.flush_nact_of_zero (ch' := .ad) (s.flush_nact .ad) .msg
  have hn' : ((s.flush .ad).flush .msg).msg.nact = 0#4 := (s.flush .ad).flush_nact .msg
  exact (((hs.flush .ad).flush .msg).finish hn hn').with_unseen ..

/-! ### Absorbing into the open channel -/

/-- The phase in which a channel takes data (10_state.md R25). -/
def openPhase : Channel → Phase
  | .ad => .ad
  | .msg => .msg

/-- With the order checks held, the channel is open for the data (45_polyval_engine.md R99). -/
theorem State.openChannel_phase {s : State} {ch : Channel} (hp : s.phase ≠ .final) (ho : ¬(ch = .ad ∧ s.phase = .msg)) :
    (s.openChannel ch).phase = openPhase ch := by
  rcases s.openChannel_cases ch with ⟨rfl, -, h⟩ | ⟨hc, h⟩ <;> rw [h]
  · rfl
  · cases ch <;> cases hs : s.phase <;> simp_all [openPhase]

theorem State.openChannel_tot (s : State) (ch ch' : Channel) :
    ((s.openChannel ch).chan ch').tot = (s.chan ch').tot := by
  rcases s.openChannel_cases ch with ⟨-, -, h⟩ | ⟨-, h⟩ <;> rw [h]
  exact s.flush_tot .ad ch'

/-- A channel that is open may take any padded cache and any total within the limit: the phase clauses speak of the other. -/
theorem State.Inv.setChan {s : State} (hs : s.Inv) {ch : Channel} {c : Hasher} (hp : s.phase = openPhase ch)
    (hc : c.padded) (ht : c.tot.toNat ≤ s.par.limitBytes) : (s.setChan ch c).Inv := by
  cases ch with
  | ad =>
    exact { hs with
      padding := fun | .ad => hc | .msg => hs.padding .msg
      totals := fun | .ad => ht | .msg => hs.totals .msg
      phaseMsg := fun h => absurd (hp.symm.trans h) nofun
      phaseFinal := fun h => absurd (hp.symm.trans h) nofun }
  | msg =>
    exact { hs with
      padding := fun | .ad => hs.padding .ad | .msg => hc
      totals := fun | .ad => hs.totals .ad | .msg => ht
      phaseAd := fun h => absurd (hp.symm.trans h) nofun
      phaseFinal := fun h => absurd (hp.symm.trans h) nofun }

theorem State.Inv.absorb {s : State} (hs : s.Inv) {ch : Channel} (hp : s.phase = openPhase ch) (b : Byte) :
    (s.absorb ch b).Inv := by
  have hpad := s.absorb_padded ch b hs.padding ch
  rcases s.absorb_cases ch b with ⟨-, h⟩ | ⟨-, h⟩ <;> rw [h, State.chan_setChan_same] at hpad <;> rw [h]
  · exact State.Inv.setChan (hs.with_unseen ..) hp hpad (hs.totals ch)
  · exact hs.setChan hp hpad (hs.totals ch)

theorem State.Inv.absorbAll {ch : Channel} (bs : List Byte) :
    ∀ {s : State}, s.Inv → s.phase = openPhase ch → (s.absorbAll ch bs).Inv := by
  induction bs with
  | nil => exact fun hs _ => hs
  | cons b bs ih => exact fun hs hp => ih (hs.absorb hp b) ((State.absorb_phase ..).trans hp)

theorem State.Inv.addTotal {s : State} (hs : s.Inv) {ch : Channel} (hp : s.phase = openPhase ch) {n : Nat}
    (hl : (s.chan ch).tot.toNat + n ≤ s.par.limitBytes) : (s.addTotal ch n).Inv := by
  refine hs.setChan hp (hs.padding ch) ?_
  calc ((s.chan ch).tot + BitVec.ofNat 64 n).toNat
      ≤ (s.chan ch).tot.toNat + (BitVec.ofNat 64 n).toNat := by
        rw [BitVec.toNat_add]
        exact Nat.mod_le _ _
    _ ≤ (s.chan ch).tot.toNat + n := by
        rw [BitVec.toNat_ofNat]
        exact Nat.add_le_add_left (Nat.mod_le _ _) _
    _ ≤ s.par.limitBytes := hl

/-- What `PVUPD` does once its checks hold (45_polyval_engine.md R99): the channel is opened, the bytes are absorbed and
counted. -/
theorem State.Inv.update {s : State} (hs : s.Inv) {ch : Channel} {n : Nat} (bs : List Byte) (hp : s.phase ≠ .final)
    (ho : ¬(ch = .ad ∧ s.phase = .msg)) (hl : (s.chan ch).tot.toNat + n ≤ s.par.limitBytes) :
    (((s.openChannel ch).absorbAll ch bs).addTotal ch n).Inv := by
  have hopen := State.openChannel_phase hp ho
  refine ((hs.openChannel ch).absorbAll bs hopen).addTotal ((State.absorbAll_phase ..).trans hopen) ?_
  rw [State.absorbAll_tot, State.openChannel_tot, State.absorbAll_par, State.openChannel_par]
  exact hl

/-! ### Every command, every step -/

theorem State.Inv.with_schedule {s : State} (hs : s.Inv) (rk : Vector Word 60) (klen : KeyLen) :
    State.Inv { s with rk := rk, ksv := true, klen := klen } :=
  { hs with scheduleCleared := nofun }

theorem State.Inv.with_table {s : State} (hs : s.Inv) (h : Block) :
    State.Inv { s with h := h, t := table h, tbv := true } :=
  { hs with tableValid := fun _ => rfl, tableCleared := nofun }

theorem State.Inv.without_schedule {s : State} (hs : s.Inv) :
    State.Inv { s with rk := Vector.replicate 60 0#32, ksv := false, klen := .k128 } :=
  { hs with scheduleCleared := fun _ => ⟨rfl, rfl⟩ }

theorem State.Inv.without_table {s : State} (hs : s.Inv) :
    State.Inv { s with h := 0#128, t := Vector.replicate 256 0#128, tbv := false } :=
  { hs with tableValid := nofun, tableCleared := fun _ => ⟨rfl, rfl⟩ }

theorem State.Inv.executed {s t : State} {i : Instr} (hs : s.Inv) (h : Executed s i t) : t.Inv := by
  cases h with
  | failed => exact hs.failed _
  | nop => exact hs.done
  | kexp => exact (hs.with_schedule _ _).done
  | cipher => exact hs.with_unseen ..
  | kclr => exact hs.without_schedule.with_unseen ..
  | pvkey => exact (hs.with_table _).done
  | pvinit => exact hs.emptyHash.done
  | pvupd _ _ hp ho hl => exact (hs.update _ hp ho hl).done
  | pvmul => exact hs.with_unseen ..
  | pvfin => exact hs.finishHash.done
  | pvclr => exact hs.emptyHash.without_table.with_unseen ..

/-- Settles O58: the invariant is kept by every kind of event, and of a command by each of its cases. -/
theorem invariantKeptByEveryStep : Obligations.InvariantKeptByEveryStep := fun _ _ hs h =>
  step_keeps (P := State.Inv) (taken := fun _ _ hs => hs.with_unseen ..) (rst := fun _ hs => State.afterReset_inv hs.params)
    (read := fun _ _ hs => hs.with_unseen ..) (write := fun _ r v hs => hs.regWrite r v)
    (illegal := fun _ hs => hs.failed _) (command := fun _ _ _ hs ht => hs.executed ht) hs h

/-- Settles O57: a reset gives the invariant whatever state it meets, and it leaves no key schedule. -/
theorem invariantHoldsAtReset : Obligations.InvariantHoldsAtReset :=
  ⟨State.afterReset_inv (s := State.reset) (by decide), nofun⟩

end Sys2Proof.Machine

namespace Sys2Proof.Machine

/-! ## Reset and the status word (10_state.md R34, R28) -/

/-- A reset gives every element its value of the table of R34, from every state (70_reset_and_hazards.md R121). -/
theorem State.afterReset_atReset (s : State) : s.afterReset.atReset :=
  ⟨rfl, rfl, fun i => Vector.getElem_replicate i.isLt, rfl, rfl, rfl, rfl, rfl, fun v => Vector.getElem_replicate v.isLt,
    rfl, rfl, rfl, rfl, rfl, rfl, rfl, rfl, rfl, rfl, rfl, rfl⟩

/-- Settles O15: the reset state is a reset of itself. -/
theorem resetStateHasResetValues : Obligations.ResetStateHasResetValues := State.reset.afterReset_atReset

@[simp] theorem statusWord_reset : statusWord State.reset = 0#32 := by decide

/-- Every field of `STATUS` at its bits (10_state.md R28). -/
theorem statusWord_fields (s : State) :
    (statusWord s).extractLsb' 0 4 = s.err.code ∧ (statusWord s).extractLsb' 4 1 = flagBit s.ksv ∧
      (statusWord s).extractLsb' 5 1 = flagBit s.tbv ∧ (statusWord s).extractLsb' 6 2 = s.phase.code ∧
      (statusWord s).extractLsb' 8 1 = flagBit s.fatal ∧ (statusWord s).extractLsb' 9 2 = BitVec.ofNat 2 s.klen.num ∧
      (statusWord s).extractLsb' 11 5 = 0#5 ∧ (statusWord s).extractLsb' 16 4 = s.ad.nact ∧
      (statusWord s).extractLsb' 20 4 = s.msg.nact ∧ (statusWord s).extractLsb' 24 8 = 0#8 := by
  simp [statusWord, BitVec.extractLsb'_append_eq_ite (w := 1), BitVec.extractLsb'_append_eq_ite (w := 2),
    BitVec.extractLsb'_append_eq_ite (w := 4), BitVec.extractLsb'_append_eq_ite (w := 5)]

/-- A flag is the bit at its place. -/
theorem getLsbD_of_extract_flagBit {w : Word} {k : Nat} {b : Bool} (h : w.extractLsb' k 1 = flagBit b) :
    w.getLsbD k = b := by
  have hbit := congrArg (fun v : BitVec 1 => v.getLsbD 0) h
  cases b <;> simpa [flagBit] using hbit

/-- Settles O13: the fields by `statusWord_fields`, and `STATUS` in the register map as a read-only register. -/
theorem statusWordLayout : Obligations.StatusWordLayout := by
  intro s v
  have hmap : regAt 0x04 = some .status := rfl
  obtain ⟨herr, hksv, htbv, hphase, hfatal, hklen, hlow, had, hmsg, hhigh⟩ := statusWord_fields s
  exact ⟨(reads_iff s (by decide) hmap _).2 rfl, (writes_iff s (by decide) hmap v s).2 rfl, herr,
    getLsbD_of_extract_flagBit hksv, getLsbD_of_extract_flagBit htbv, hphase, getLsbD_of_extract_flagBit hfatal,
    hklen.trans (by cases s.klen <;> rfl), hlow, had, hmsg, hhigh,
    (reads_iff State.reset (by decide) hmap _).2 statusWord_reset⟩

end Sys2Proof.Machine

namespace Sys2Proof.Machine

/-! ## Which commands change which registers (10_state.md R12, R17 to R26) -/

section Frames

variable {s t : State} {i : Instr}

theorem Executed.key_eq (h : Executed s i t) (hi : i ≠ .kclr) : t.key = s.key := by
  cases h with
  | kclr => exact absurd rfl hi
  | _ => simp

theorem Executed.schedule_eq (h : Executed s i t) (hi : ∀ kl, i ≠ .kexp kl) (hi' : i ≠ .kclr) :
    t.rk = s.rk ∧ t.ksv = s.ksv ∧ t.klen = s.klen := by
  cases h with
  | kexp => exact absurd rfl (hi _)
  | kclr => exact absurd rfl hi'
  | _ => simp

theorem Executed.kexp_of_ksv (h : Executed s i t) (hs : s.ksv = false) (ht : t.ksv = true) : ∃ kl, i = .kexp kl := by
  cases h with
  | kexp => exact ⟨_, rfl⟩
  | _ => simp [hs] at ht

theorem Executed.inputs_eq (h : Executed s i t) (hi : i ≠ .pvclr) : t.x = s.x ∧ t.hk = s.hk ∧ t.tidx = s.tidx := by
  cases h with
  | pvclr => exact absurd rfl hi
  | _ => simp

theorem Executed.table_eq (h : Executed s i t) (hi : i ≠ .pvkey) (hi' : i ≠ .pvclr) :
    t.h = s.h ∧ t.t = s.t ∧ t.tbv = s.tbv := by
  cases h with
  | pvkey => exact absurd rfl hi
  | pvclr => exact absurd rfl hi'
  | _ => simp

theorem Executed.pvkey_of_tbv (h : Executed s i t) (hs : s.tbv = false) (ht : t.tbv = true) : i = .pvkey := by
  cases h with
  | pvkey => rfl
  | _ => simp [hs] at ht

theorem Executed.fatal_of_fatal (h : Executed s i t) (hs : s.fatal = true) (hi : i ≠ .pvinit) (hi' : i ≠ .pvclr) :
    t.fatal = true := by
  cases h with
  | pvinit => exact absurd rfl hi
  | pvclr => exact absurd rfl hi'
  | _ => simp [hs]

theorem Executed.limit_of_fatal (h : Executed s i t) (hs : s.fatal = false) (ht : t.fatal = true) :
    t.err = .limit ∧ ∃ ch n, i = .pvupd ch n := by
  cases h with
  | @failed _ e _ he =>
    have he' : e = .limit := by simpa [hs] using ht
    exact ⟨he', he he'⟩
  | _ => simp [hs] at ht

/-- The phase never moves back but by the two commands that empty the hash. -/
theorem Executed.rank_le (h : Executed s i t) (hi : i ≠ .pvinit) (hi' : i ≠ .pvclr) : s.phase.rank ≤ t.phase.rank := by
  cases h with
  | pvinit => exact absurd rfl hi
  | pvclr => exact absurd rfl hi'
  | @pvupd ch =>
    rcases s.openChannel_cases ch with ⟨-, hp, h⟩ | ⟨-, h⟩
    · exact hp ▸ Nat.zero_le _
    · simp [h]
  | pvfin => cases s.phase <;> simp [Phase.rank]
  | _ => simp

theorem Executed.phase_ad (h : Executed s i t) (hi : i = .pvinit ∨ i = .pvclr) : t.phase = .ad := by
  rcases hi with rfl | rfl
  · cases h with
    | failed hi => exact absurd (by decide) hi
    | cipher hi => simp at hi
    | pvinit => rfl
  · cases h with
    | failed hi => exact absurd (by decide) hi
    | cipher hi => simp at hi
    | pvclr => rfl

end Frames

/-- Settles O55: each clause is a frame of `Executed`. -/
theorem registersChangedOnlyByTheirCommands : Obligations.RegistersChangedOnlyByTheirCommands := by
  intro i s t h
  have h := executed_of_exec h
  exact ⟨h.key_eq, h.schedule_eq, h.kexp_of_ksv, h.inputs_eq, h.table_eq, h.pvkey_of_tbv⟩

/-- With `FATAL` set, a `PVUPD` that passes its two earlier checks stops at the third (60_exceptions.md R107). -/
theorem exec_pvupd_of_fatal {s : State} (hf : s.fatal = true) (ht : s.tbv = true) (ch : Channel) {n : Nat} (hn : n ≤ 16) :
    exec (.pvupd ch n) s = .next { s with err := .fatal } := by
  have hstop : ¬ s.fatal = false := by simp [hf]
  rw [← s.failed_eq (e := .fatal) (by decide)]
  exact (check_pass hn _ _ _).trans ((check_pass ht _ _ _).trans (check_stop hstop _ _ _))

/-- With `FATAL` set, a `PVFIN` that passes its earlier check stops at the second (60_exceptions.md R107). -/
theorem exec_pvfin_of_fatal {s : State} (hf : s.fatal = true) (ht : s.tbv = true) :
    exec .pvfin s = .next { s with err := .fatal } := by
  have hstop : ¬ s.fatal = false := by simp [hf]
  rw [← s.failed_eq (e := .fatal) (by decide)]
  exact (check_pass ht _ _ _).trans (check_stop hstop _ _ _)

/-- Settles O20: the two checks of `FATAL`, and what `Executed` says of `FATAL` before and after a command. -/
theorem fatalStaysUntilCleared : Obligations.FatalStaysUntilCleared :=
  ⟨fun _ ch _ hf ht hn => ⟨exec_pvupd_of_fatal hf ht ch hn, exec_pvfin_of_fatal hf ht⟩,
    fun _ _ _ h => (executed_of_exec h).fatal_of_fatal, fun _ _ _ h => (executed_of_exec h).limit_of_fatal⟩

/-! ### The phase in every step -/

/-- The opcode map read from number to opcode is undone by reading it from opcode to number (30_encoding.md R53). -/
theorem setWidth_eq_opcodeNumber {b : BitVec 8} {o : Opcode} (h : opcodeOf b = some o) :
    b.setWidth 32 = opcodeNumber o := by
  unfold opcodeOf at h
  split at h <;> cases h <;> rfl

theorem opcodeFor_instrOf (c : Word) (o : Opcode) : opcodeFor (instrOf c o) = o := by
  cases o <;> rfl

/-- What a legal word is: it has an assigned opcode, no must-be-0 bit is set, and its fields are the operands (30_encoding.md
R54). -/
theorem decode_ok_cases {c : Word} {i : Instr} (h : decode c = .ok i) :
    ∃ o, opcodeOf (fieldOp c) = some o ∧ c &&& ~~~(0xFF#32 ||| allowedMask o) = 0#32 ∧ instrOf c o = i := by
  unfold decode at h
  split at h
  · cases h
  · next o ho =>
    split at h
    · cases h
    · next hm =>
      cases h
      exact ⟨o, ho, not_not.1 hm, rfl⟩

/-- A word with no bit above `OP` is its opcode (30_encoding.md R51). -/
theorem eq_setWidth_fieldOp {c : Word} (h : c &&& ~~~0xFF#32 = 0#32) : c = (fieldOp c).setWidth 32 := by
  have hmask : ∀ k < 32, (~~~0xFF#32).getLsbD k = decide (8 ≤ k) := by decide
  apply BitVec.eq_of_getLsbD_eq
  intro k hk
  have hbit := congrArg (fun w : Word => w.getLsbD k) h
  simp only [BitVec.getLsbD_and, hmask k hk, BitVec.getLsbD_zero] at hbit
  by_cases hlow : k < 8
  · simp [fieldOp, hk, hlow]
  · have hzero : c.getLsbD k = false := by simpa [Nat.le_of_not_lt hlow] using hbit
    rw [hzero]
    simp [fieldOp, hlow]

/-- A command without operands has one word, its opcode's number (30_encoding.md R53). -/
theorem eq_opcodeNumber_of_decode {c : Word} {i : Instr} (h : decode c = .ok i) (hm : allowedMask (opcodeFor i) = 0#32) :
    c = opcodeNumber (opcodeFor i) := by
  obtain ⟨o, ho, hbits, rfl⟩ := decode_ok_cases h
  rw [opcodeFor_instrOf] at hm ⊢
  rw [hm, BitVec.or_zero] at hbits
  exact (eq_setWidth_fieldOp hbits).trans (setWidth_eq_opcodeNumber ho)

/-- Settles O56: by the kind of the event, and of a command by whether it is one of the two that empty the hash. -/
theorem phaseMovesOnlyForward : Obligations.PhaseMovesOnlyForward := by
  intro s t h
  rcases step_cases h with ⟨-, rfl⟩ | ⟨e, rest, hpend, hperf⟩
  · exact .inl le_rfl
  · cases hperf with
    | rst => exact .inr ⟨rfl, _, rest, hpend, .inl rfl⟩
    | read => exact .inl le_rfl
    | @write _ _ r => exact .inl (by cases r <;> exact le_rfl)
    | illegal => exact .inl le_rfl
    | @command c i _ hd ht =>
      by_cases hi : i = .pvinit ∨ i = .pvclr
      · refine .inr ⟨ht.phase_ad hi, _, rest, hpend, .inr ?_⟩
        rcases hi with rfl | rfl
        · exact .inl (congrArg _ (eq_opcodeNumber_of_decode hd rfl))
        · exact .inr (congrArg _ (eq_opcodeNumber_of_decode hd rfl))
      · rw [not_or] at hi
        exact .inl (ht.rank_le hi.1 hi.2)

end Sys2Proof.Machine

namespace Sys2Proof.Machine

/-! ## The key schedule (10_state.md R14, R16) -/

/-- A command leaves a schedule that is the expansion of a key: `KEXP` writes one, `KCLR` leaves none, and no other changes it. -/
theorem State.ScheduleHeld.executed {s t : State} {i : Instr} (hs : s.ScheduleHeld) (h : Executed s i t) :
    t.ScheduleHeld := by
  cases h with
  | kexp => exact fun _ => ⟨s.key, rfl⟩
  | kclr => nofun
  | _ => simpa [State.ScheduleHeld] using hs

/-- Settles O59: only a command or a reset changes the schedule. -/
theorem scheduleKeptByEveryStep : Obligations.ScheduleKeptByEveryStep := fun _ _ hs h =>
  step_keeps (P := State.ScheduleHeld) (taken := fun _ _ hs => hs) (rst := fun _ _ => nofun) (read := fun _ _ hs => hs)
    (write := fun _ r _ hs => by cases r <;> exact hs) (illegal := fun _ hs => hs)
    (command := fun _ _ _ hs ht => hs.executed ht) hs h

/-- Word `i` of a key is its bytes `4i` to `4i+3` (42_aes_key_expansion.md R75). -/
theorem keyWordAt_congr {k k' : KeyStr} {m : Nat} (h : ∀ i, i < 4 * m → keyByteAt k i = keyByteAt k' i) {i : Nat}
    (hi : i < m) : keyWordAt k i = keyWordAt k' i := by
  simp only [keyWordAt, h (4 * i) (by omega), h (4 * i + 1) (by omega), h (4 * i + 2) (by omega),
    h (4 * i + 3) (by omega)]

/-- The expansion reads the key in its first `Nk` words only (42_aes_key_expansion.md R75). -/
theorem keyExpansion_congr {kl : KeyLen} {k k' : KeyStr} (h : ∀ i, i < kl.nk → keyWordAt k i = keyWordAt k' i) :
    keyExpansion kl k = keyExpansion kl k' := by
  have hwords : (List.range kl.nk).map (keyWordAt k) = (List.range kl.nk).map (keyWordAt k') :=
    List.map_congr_left fun i hi => h i (List.mem_range.1 hi)
  rw [keyExpansion, hwords, keyExpansion]

/-- Settles O29: the bytes past the first `4·Nk` are in no word that the expansion reads. -/
theorem scheduleIgnoresUnusedKeyBytes : Obligations.ScheduleIgnoresUnusedKeyBytes := by
  intro kl k k' h
  have hexp : keyExpansion kl k = keyExpansion kl k' := keyExpansion_congr fun _ hi => keyWordAt_congr h hi
  rw [scheduleFile, hexp, scheduleFile]

end Sys2Proof.Machine

namespace Sys2Proof.Machine

/-! ## What a step does outside the block (20_memory.md R46) -/

/-- No command touches the parameters, the waiting events or the answers. -/
theorem Executed.keepsOutside {s t : State} {i : Instr} (h : Executed s i t) : sameOutside s t := by
  cases h with
  | _ => simp [sameOutside]

theorem regWrite_keepsOutside (s : State) (r : Reg) (v : Word) : sameOutside s (regWrite s r v) := by
  cases r <;> exact ⟨rfl, rfl, rfl⟩

/-- Of the events only a read adds an answer; none touches the parameters or the events behind it. -/
theorem Performed.outside {s t : State} {e : HostEvent} (h : Performed s e t) :
    t.par = s.par ∧ t.pending = s.pending ∧ (t.answers = s.answers ∨ ∃ v, t.answers = v :: s.answers) := by
  have quiet {u : State} (hu : sameOutside s u) :
      u.par = s.par ∧ u.pending = s.pending ∧ (u.answers = s.answers ∨ ∃ v, u.answers = v :: s.answers) :=
    hu.imp_right (And.imp_right .inl)
  cases h with
  | rst => exact quiet ⟨rfl, rfl, rfl⟩
  | read => exact ⟨rfl, rfl, .inr ⟨_, rfl⟩⟩
  | write => exact quiet (regWrite_keepsOutside ..)
  | illegal => exact quiet ⟨rfl, rfl, rfl⟩
  | command _ ht => exact quiet ht.keepsOutside

/-- Settles O6: an idle step changes nothing, and another performs the oldest event at the state without it. -/
theorem stepTakesOneEvent : Obligations.StepTakesOneEvent := by
  intro s t h
  rcases step_cases h with ⟨hp, rfl⟩ | ⟨e, rest, hp, hperf⟩
  · exact ⟨rfl, by simp [hp], .inl rfl, fun _ => rfl⟩
  · obtain ⟨hpar, hpend, hans⟩ := hperf.outside
    exact ⟨hpar, by rw [hpend, hp, List.tail_cons], hans, by simp [hp]⟩

end Sys2Proof.Machine

namespace Sys2Proof.Machine

/-! ## Bus errors (20_memory.md R39, R40) -/

/-- The reserved word indices of the register map (20_memory.md R36, R40). -/
theorem regOfIndex_eq_none_iff {k : Nat} : regOfIndex k = none ↔ k = 2 ∨ k = 3 ∨ 37 ≤ k := by
  simp only [regOfIndex, ite_eq_iff, reduceCtorEq, and_false, and_true, false_or]
  omega

/-- The register map as ranges of offsets: `mappedOffset` is where `regAt` finds a register. -/
theorem regAt_eq_none_iff {off : Nat} : regAt off = none ↔ ¬ mappedOffset off := by
  by_cases h : off % 4 = 0
  · rw [regAt, if_pos h, regOfIndex_eq_none_iff, mappedOffset]
    omega
  · simp [regAt, mappedOffset, h]

theorem exists_regAt_of_mappedOffset {off : Nat} (h : mappedOffset off) : ∃ r, regAt off = some r :=
  Option.ne_none_iff_exists'.1 fun hnone => regAt_eq_none_iff.1 hnone h

/-- Every register lies in the window. -/
theorem lt_of_regAt {off : Nat} {r : Reg} (h : regAt off = some r) : off < 256 := by
  have hmap : mappedOffset off := by
    by_contra hnone
    simp [regAt_eq_none_iff.2 hnone] at h
  obtain ⟨-, hle, -⟩ := hmap
  omega

theorem target_illegal (p : Params) {bits off : Nat} (hoff : off < 256) (h : ¬(bits = 32 ∧ mappedOffset off)) :
    target p bits (p.base + off) = .error (.busError off) := by
  by_cases hbits : bits = 32
  · subst hbits
    rw [target_window p hoff, regAt_eq_none_iff.2 fun hmap => h ⟨rfl, hmap⟩]
  · simp [target, hoff, hbits]

/-- A legal write completes, whatever the register and, for `CMD`, whatever the word (60_exceptions.md R103). -/
theorem writeReg_completes (r : Reg) (v : Word) (s : State) : ∃ t, writeReg r v s = .next t := by
  cases r with
  | cmd =>
    cases hd : decode v with
    | error e => exact ⟨_, runWord_illegal hd s⟩
    | ok i => exact (exec_completes i s).imp fun _ ht => (runWord_ok hd s).trans ht
  | _ => exact ⟨_, rfl⟩

/-- Settles O9: an illegal access has no target, and a legal one reaches a register, whose read and write complete. -/
theorem busErrorExactlyOnIllegalAccess : Obligations.BusErrorExactlyOnIllegalAccess := by
  intro s bits off v hoff
  constructor
  · intro hillegal
    rw [step_cons rfl, step_cons rfl]
    simp [perform, target_illegal s.par hoff hillegal]
  · rintro ⟨rfl, hmap⟩
    obtain ⟨r, hr⟩ := exists_regAt_of_mappedOffset hmap
    exact ⟨⟨_, (reads_iff s hoff hr _).2 rfl⟩, (writeReg_completes r v s).imp fun t => (writes_iff s hoff hr v t).2⟩

end Sys2Proof.Machine

namespace Sys2Proof.Machine

/-! ## Reading and writing the registers (20_memory.md R36, R41, R42) -/

/-! ### The offsets of the register groups (R36) -/

theorem regAt_key : ∀ j < 8, regAt (0x10 + 4 * j) = some (.key j) := by decide

theorem regAt_st : ∀ j < 4, regAt (0x30 + 4 * j) = some (.st j) := by decide

theorem regAt_x : ∀ j < 4, regAt (0x40 + 4 * j) = some (.x j) := by decide

theorem regAt_hk : ∀ j < 4, regAt (0x50 + 4 * j) = some (.hk j) := by decide

theorem regAt_acc : ∀ j < 4, regAt (0x60 + 4 * j) = some (.acc j) := by decide

theorem regAt_tdat : ∀ j < 4, regAt (0x84 + 4 * j) = some (.tdat j) := by decide

/-! ### Reads -/

theorem reads_regRead (s : State) {off : Nat} {r : Reg} (hr : regAt off = some r) : s.reads off (regRead s r) :=
  (reads_iff s (lt_of_regAt hr) hr _).2 rfl

/-- A register that shows lane `j` of a block is read as the lane's four bytes, the first least significant (R37). -/
theorem reads_lane {s : State} {off j : Nat} {r : Reg} {b : Block} (hr : regAt off = some r)
    (hread : regRead s r = lane b j) :
    ∃ v, s.reads off v ∧ ∀ i, i < 4 → v.extractLsb' (8 * i) 8 = byteAt b (4 * j + i) :=
  ⟨lane b j, hread ▸ reads_regRead s hr, fun _ => laneByte_lane b j⟩

/-- The accumulator is read in POLYVAL order, the reverse of how it is held (R41; 00_scope.md R10). -/
theorem reads_acc (s : State) {j : Nat} (hj : j < 4) :
    ∃ v, s.reads (0x60 + 4 * j) v ∧ ∀ i, i < 4 → v.extractLsb' (8 * i) 8 = byteAt s.g (15 - (4 * j + i)) := by
  obtain ⟨v, hv, hbytes⟩ := reads_lane (s := s) (regAt_acc j hj) rfl
  exact ⟨v, hv, fun i hi => (hbytes i hi).trans (byteAt_rev _ (by omega))⟩

/-- A byte total is read as its lower and its upper half. -/
theorem reads_total (s : State) {lo hi : Nat} {ch : Channel} (hlo : regAt lo = some (.totLo ch))
    (hhi : regAt hi = some (.totHi ch)) :
    ∃ vlo vhi, s.reads lo vlo ∧ s.reads hi vhi ∧
      vlo.toNat = (s.chan ch).tot.toNat % 2 ^ 32 ∧ vhi.toNat = (s.chan ch).tot.toNat / 2 ^ 32 := by
  refine ⟨_, _, reads_regRead s hlo, reads_regRead s hhi, ?_, ?_⟩
  · simp [regRead]
  · simp only [regRead, BitVec.extractLsb'_toNat, Nat.shiftRight_eq_div_pow]
    omega

/-- Settles O7: each row of R41 is `regRead` at the register that the map has at the offset. -/
theorem readsReturnTheRegisters : Obligations.ReadsReturnTheRegisters := fun s =>
  ⟨reads_regRead s regAt_cmd, reads_regRead s (r := .status) rfl,
    fun j hj => reads_regRead s (regAt_key j hj), fun j hj => reads_regRead s (regAt_hk j hj),
    fun j hj => reads_lane (regAt_st j hj) rfl, fun j hj => reads_lane (regAt_x j hj) rfl, fun _ => reads_acc s,
    reads_total s (ch := .ad) rfl rfl, reads_total s (ch := .msg) rfl rfl,
    ⟨_, reads_regRead s (r := .tidx) rfl, BitVec.toNat_setWidth_of_le (by decide)⟩,
    fun j hj => reads_lane (regAt_tdat j hj) rfl⟩

/-! ### Writes -/

/-- A write of any register but `CMD` is `regWrite`. -/
theorem writes_regWrite (s : State) {off : Nat} {r : Reg} (hr : regAt off = some r) (hcmd : r ≠ .cmd) (v : Word) :
    s.writes off v (regWrite s r v) := by
  rw [writes_iff s (lt_of_regAt hr) hr]
  cases r with
  | cmd => exact absurd rfl hcmd
  | _ => rfl

/-- A write of `CMD` executes its word (R42; 40_command_dispatch.md R59). -/
theorem writes_command {c : Word} {i : Instr} {s t : State} (hd : decode c = .ok i) (ht : exec i s = .next t) :
    s.writes 0x00 c t :=
  (writes_iff s (by decide) regAt_cmd c t).2 ((runWord_ok hd s).trans ht)

/-- The read-only registers of the map (R36). -/
def Reg.readOnly : Reg → Bool
  | .status | .acc _ | .totLo _ | .totHi _ | .tdat _ => true
  | .cmd | .key _ | .st _ | .x _ | .hk _ | .tidx => false

theorem regWrite_readOnly (s : State) {r : Reg} (h : r.readOnly = true) (v : Word) : regWrite s r v = s := by
  cases r with
  | status | acc | totLo | totHi | tdat => rfl
  | cmd | key | st | x | hk | tidx => cases h

theorem writes_readOnly (s : State) {off : Nat} (h : (regAt off).any Reg.readOnly = true) (v : Word) : s.writes off v s := by
  obtain ⟨r, hr, hro⟩ := (Option.any_eq_true _ _).1 h
  have hcmd : r ≠ .cmd := by
    rintro rfl
    cases hro
  simpa only [regWrite_readOnly s hro] using writes_regWrite s hr hcmd v

/-- Settles O8: each row of R42 is `regWrite` at the register that the map has at the offset, and `CMD` runs its word. -/
theorem writesChangeTheNamedBytes : Obligations.WritesChangeTheNamedBytes := by
  intro s v
  have hacc : ∀ j < 8, (regAt (0x60 + 4 * j)).any Reg.readOnly = true := by decide
  have htdat : ∀ j < 4, (regAt (0x84 + 4 * j)).any Reg.readOnly = true := by decide
  exact ⟨fun _ _ => writes_command, fun _ hd => writes_illegal hd s,
    fun j hj => ⟨_, writes_regWrite s (regAt_key j hj) nofun v, fun _ => keyByteAt_setKeyLane _ _ _⟩,
    fun j hj => ⟨_, writes_regWrite s (regAt_st j hj) nofun v, fun _ => byteAt_setLane _ _ _⟩,
    fun j hj => ⟨_, writes_regWrite s (regAt_x j hj) nofun v, fun _ => byteAt_setLane _ _ _⟩,
    fun j hj => ⟨_, writes_regWrite s (regAt_hk j hj) nofun v, fun _ => byteAt_setLane _ _ _⟩,
    ⟨_, writes_regWrite s (r := .tidx) rfl nofun v, BitVec.toNat_setWidth ..⟩,
    writes_readOnly s rfl v, fun j hj => writes_readOnly s (hacc j hj) v, fun j hj => writes_readOnly s (htdat j hj) v⟩

/-! ### Reading back what was written -/

/-- A group of four registers that hold the lanes of one block: a lane reads back what was written to it, and the write leaves
what the other lanes read. -/
theorem lanes_readBack {off : Nat → Nat} {reg : Nat → Reg} {block : State → Block}
    (hmap : ∀ j < 4, regAt (off j) = some (reg j)) (hcmd : ∀ j, reg j ≠ .cmd)
    (hread : ∀ s j, regRead s (reg j) = lane (block s) j)
    (hwrite : ∀ s j v, block (regWrite s (reg j) v) = setLane (block s) j v) (s : State) (v : Word) {j : Nat} (hj : j < 4) :
    ∃ t, s.writes (off j) v t ∧ t.reads (off j) v ∧
      ∀ k w, k < 4 → k ≠ j → s.reads (off k) w → t.reads (off k) w := by
  have hlane : ∀ k < 4, regRead (regWrite s (reg j) v) (reg k) = if k = j then v else regRead s (reg k) := by
    intro k hk
    rw [hread, hwrite, lane_setLane _ _ hk, hread]
  refine ⟨_, writes_regWrite s (hmap j hj) (hcmd j) v, ?_, ?_⟩
  · rw [reads_iff _ (lt_of_regAt (hmap j hj)) (hmap j hj), hlane j hj, if_pos rfl]
  · intro k w hk hne hw
    rw [reads_iff _ (lt_of_regAt (hmap k hk)) (hmap k hk)] at hw ⊢
    rw [hlane k hk, if_neg hne, hw]

/-- `TIDX` keeps bits 7:0 of what is written to it. -/
theorem setWidth_setWidth_eq_and (v : Word) : (v.setWidth 8).setWidth 32 = v &&& 0xFF#32 := by
  apply BitVec.eq_of_toNat_eq
  have hmod : v.toNat &&& 255 = v.toNat % 256 := Nat.and_two_pow_sub_one_eq_mod v.toNat 8
  rw [BitVec.toNat_setWidth_of_le (by decide), BitVec.toNat_setWidth, BitVec.toNat_and]
  exact hmod.symm

/-- Settles O11: `ST` and `X` are groups of lanes, and `TIDX` reads the byte that was written. -/
theorem writtenRegistersReadBack : Obligations.WrittenRegistersReadBack := by
  intro s v j hj
  have htidx : regAt 0x80 = some .tidx := rfl
  exact ⟨lanes_readBack (block := State.st) regAt_st nofun (fun _ _ => rfl) (fun _ _ _ => rfl) s v hj,
    lanes_readBack (block := State.x) regAt_x nofun (fun _ _ => rfl) (fun _ _ _ => rfl) s v hj,
    _, writes_regWrite s htidx nofun v, (reads_iff _ (by decide) htidx _).2 (setWidth_setWidth_eq_and v)⟩

end Sys2Proof.Machine

namespace Sys2Proof.Machine

/-! ## The command word (30_encoding.md R51 to R55) -/

/-! ### The decoder, case by case (R54) -/

/-- The converse of `decode_ok_cases`. -/
theorem decode_of_fields {c : Word} {o : Opcode} (ho : opcodeOf (fieldOp c) = some o)
    (hm : c &&& ~~~(0xFF#32 ||| allowedMask o) = 0#32) : decode c = .ok (instrOf c o) := by
  simp [decode, ho, hm]

theorem decode_unassigned {c : Word} (h : opcodeOf (fieldOp c) = none) : decode c = .error .unassignedOpcode := by
  simp [decode, h]

/-- The two rows of the opcode map's numbers hold every assigned one (R53). -/
theorem opcodeOf_eq_none {b : BitVec 8} (hlow : b.toNat ∉ [0x00, 0x01, 0x02, 0x03, 0x04, 0x05, 0x06])
    (hhigh : b.toNat ∉ [0x10, 0x11, 0x12, 0x13, 0x14, 0x15]) : opcodeOf b = none := by
  rw [Option.eq_none_iff_forall_ne_some]
  intro o ho
  have hnum : b.toNat = (opcodeNumber o).toNat := by
    rw [← setWidth_eq_opcodeNumber ho, BitVec.toNat_setWidth_of_le (by decide)]
  rw [hnum] at hlow hhigh
  revert hlow hhigh
  cases o <;> decide

theorem fieldCh_eq (c : Word) : fieldCh c = if c.extractLsb' 8 1 = 1#1 then .msg else .ad := by
  simp only [fieldCh, BitVec.getLsbD_eq_extractLsb', beq_iff_eq]

/-! ### Decoding an encoded command (R51 to R54) -/

/-- The opcode and the must-be-0 bits of an encoded command, for every command. -/
theorem encode_fields : ∀ i : Instr, Laws.EncodedFields.Statement i
  | .nop => Laws.EncodedFields.nop
  | .kexp kl => Laws.EncodedFields.kexp kl
  | .enc => Laws.EncodedFields.enc
  | .ark r => Laws.EncodedFields.ark r
  | .rnd r => Laws.EncodedFields.rnd r
  | .rndl r => Laws.EncodedFields.rndl r
  | .kclr => Laws.EncodedFields.kclr
  | .pvkey => Laws.EncodedFields.pvkey
  | .pvinit => Laws.EncodedFields.pvinit
  | .pvupd ch n => Laws.EncodedFields.pvupd ch n
  | .pvmul => Laws.EncodedFields.pvmul
  | .pvfin => Laws.EncodedFields.pvfin
  | .pvclr => Laws.EncodedFields.pvclr

/-- An operand put at bit `k` over bits below `k` is read back from there, if it fits its field. -/
theorem toNat_extractLsb'_operand {v k w : Nat} {low : Word} (hv : v < 2 ^ w) (hk : w + k ≤ 32) (hlow : low.toNat < 2 ^ k) :
    ((BitVec.ofNat 32 v <<< k ||| low).extractLsb' k w).toNat = v := by
  have hfit : v * 2 ^ k < 2 ^ 32 :=
    calc v * 2 ^ k < 2 ^ w * 2 ^ k := Nat.mul_lt_mul_of_pos_right hv (Nat.two_pow_pos k)
      _ = 2 ^ (w + k) := (Nat.pow_add 2 w k).symm
      _ ≤ 2 ^ 32 := Nat.pow_le_pow_right (by decide) hk
  have hplace : (BitVec.ofNat 32 v <<< k).toNat = v <<< k := by
    rw [BitVec.toNat_shiftLeft, BitVec.toNat_ofNat, Nat.shiftLeft_eq, Nat.shiftLeft_eq, Nat.mod_mul_mod, Nat.mod_eq_of_lt hfit]
  rw [BitVec.extractLsb'_toNat, BitVec.toNat_or, hplace, Nat.shiftRight_or_distrib, Nat.shiftLeft_shiftRight,
    Nat.shiftRight_eq_zero low.toNat k hlow, Nat.or_zero, Nat.mod_eq_of_lt hv]

theorem opcodeNumber_lt (o : Opcode) : (opcodeNumber o).toNat < 2 ^ 8 := by
  cases o <;> decide

/-- The fields of an encoded command are its operands (R52). -/
theorem instrOf_encode {i : Instr} (h : i.wf = true) : instrOf (encode i) (opcodeFor i) = i := by
  cases i with
  | kexp kl => exact congrArg Instr.kexp (toNat_extractLsb'_operand (of_decide_eq_true h) (by decide) (opcodeNumber_lt .kexp))
  | ark r => exact congrArg Instr.ark (toNat_extractLsb'_operand (of_decide_eq_true h) (by decide) (opcodeNumber_lt .ark))
  | rnd r => exact congrArg Instr.rnd (toNat_extractLsb'_operand (of_decide_eq_true h) (by decide) (opcodeNumber_lt .rnd))
  | rndl r => exact congrArg Instr.rndl (toNat_extractLsb'_operand (of_decide_eq_true h) (by decide) (opcodeNumber_lt .rndl))
  | pvupd ch n =>
    have hch : fieldCh (encode (.pvupd ch n)) = ch := by
      cases ch <;> simp [fieldCh, encode, operandBits, opcodeFor, opcodeNumber, channelBit]
    have hlow : (channelBit ch <<< 8 ||| opcodeNumber .pvupd).toNat < 2 ^ 16 := by cases ch <;> decide
    have hn : fieldN (encode (.pvupd ch n)) = n := by
      rw [encode, operandBits, BitVec.or_assoc]
      exact toNat_extractLsb'_operand (of_decide_eq_true h) (by decide) hlow
    exact congrArg₂ Instr.pvupd hch hn
  | nop | enc | kclr | pvkey | pvinit | pvmul | pvfin | pvclr => rfl

/-- Settles O1: the encoded word keeps to its opcode and mask, and its fields are the operands. -/
theorem decodeOfEncodeIsIdentity : Obligations.DecodeOfEncodeIsIdentity := by
  intro i hi
  obtain ⟨ho, hm⟩ := encode_fields i hi
  rw [decode_of_fields ho hm, instrOf_encode hi]

/-! ### Encoding a decoded word (R54, R55) -/

/-- A field put back in its place is the word under the field's mask. -/
theorem extractLsb'_shiftLeft_eq_and (c : Word) (k w : Nat) :
    (c.extractLsb' k w).setWidth 32 <<< k = c &&& (BitVec.allOnes w).setWidth 32 <<< k := by
  apply BitVec.eq_of_getLsbD_eq
  intro j hj
  by_cases hkj : k ≤ j
  · simp [hj, hkj, Nat.not_lt.2 hkj, Bool.and_comm]
  · simp [Nat.lt_of_not_le hkj]

theorem channelBit_fieldCh (c : Word) : channelBit (fieldCh c) = (c.extractLsb' 8 1).setWidth 32 := by
  rw [fieldCh_eq]
  rcases BitVec.eq_zero_or_eq_one (c.extractLsb' 8 1) with h | h <;> rw [h] <;> rfl

/-- The operand bits of a decoded word are its bits under the opcode's mask (R53). -/
theorem operandBits_instrOf (c : Word) (o : Opcode) : operandBits (instrOf c o) = c &&& allowedMask o := by
  cases o with
  | kexp =>
    rw [instrOf, operandBits, fieldKl, BitVec.ofNat_toNat]
    exact extractLsb'_shiftLeft_eq_and c 8 2
  | ark | rnd | rndl =>
    rw [instrOf, operandBits, fieldR, BitVec.ofNat_toNat]
    exact extractLsb'_shiftLeft_eq_and c 8 4
  | pvupd =>
    have hmask : allowedMask .pvupd = (BitVec.allOnes 5).setWidth 32 <<< 16 ||| (BitVec.allOnes 1).setWidth 32 <<< 8 := by decide
    rw [instrOf, operandBits, fieldN, BitVec.ofNat_toNat, channelBit_fieldCh, extractLsb'_shiftLeft_eq_and,
      extractLsb'_shiftLeft_eq_and, hmask, BitVec.and_or_distrib_left]
  | nop | enc | kclr | pvkey | pvinit | pvmul | pvfin | pvclr => exact BitVec.and_zero.symm

/-- A word with no bit outside two masks is made of its bits under each. -/
theorem and_or_and_of_and_not_eq_zero {c m m' : Word} (h : c &&& ~~~(m ||| m') = 0#32) : c &&& m' ||| c &&& m = c :=
  calc c &&& m' ||| c &&& m
    _ = c &&& (m ||| m') ||| c &&& ~~~(m ||| m') := by rw [h, BitVec.or_zero, BitVec.and_or_distrib_left, BitVec.or_comm]
    _ = c := by rw [← BitVec.and_or_distrib_left, BitVec.or_not_self, BitVec.and_allOnes]

/-- The bits of a word under `OP` are its opcode's number (R53). -/
theorem and_eq_opcodeNumber {c : Word} {o : Opcode} (ho : opcodeOf (fieldOp c) = some o) : c &&& 0xFF#32 = opcodeNumber o := by
  rw [← setWidth_eq_opcodeNumber ho, ← BitVec.shiftLeft_zero ((fieldOp c).setWidth 32)]
  exact (extractLsb'_shiftLeft_eq_and c 0 8).symm

theorem instrOf_wf (c : Word) (o : Opcode) : (instrOf c o).wf = true := by
  cases o with
  | kexp | ark | rnd | rndl | pvupd => exact decide_eq_true (BitVec.isLt _)
  | nop | enc | kclr | pvkey | pvinit | pvmul | pvfin | pvclr => rfl

/-- Settles O2: a legal word is its operand bits over its opcode's number. -/
theorem legalWordIsItsEncoding : Obligations.LegalWordIsItsEncoding := by
  intro c i h
  obtain ⟨o, ho, hm, rfl⟩ := decode_ok_cases h
  refine ⟨instrOf_wf c o, ?_⟩
  rw [encode, operandBits_instrOf, opcodeFor_instrOf, ← and_eq_opcodeNumber ho, and_or_and_of_and_not_eq_zero hm]

/-! ### The opcode map and the operands out of range (R53, R54) -/

/-- A round command with a schedule and a round index above `Nr` fails with `ERR_ROUND` (43_aes_cipher.md R81). -/
theorem roundCommand_of_nr_lt {r : Nat} {s : State} (b : Block) (hk : s.ksv = true) (hr : s.klen.nr < r) :
    roundCommand r s b = .next { s with err := .round } := by
  rw [← s.failed_eq (e := .round) (by decide)]
  exact (check_pass hk _ _ _).trans (check_stop (Nat.not_le_of_lt hr) _ _ _)

theorem exec_round_of_nr_lt {r : Nat} {s : State} {i : Instr} (hk : s.ksv = true) (hr : s.klen.nr < r)
    (hi : i ∈ [Instr.ark r, .rnd r, .rndl r]) : exec i s = .next { s with err := .round } := by
  simp only [List.mem_cons, List.not_mem_nil, or_false] at hi
  rcases hi with rfl | rfl | rfl <;> exact roundCommand_of_nr_lt _ hk hr

theorem exec_pvupd_of_lt (ch : Channel) {n : Nat} (hn : 16 < n) (s : State) :
    exec (.pvupd ch n) s = .next { s with err := .len } := by
  rw [← s.failed_eq (e := .len) (by decide)]
  exact check_stop (Nat.not_le_of_lt hn) _ _ _

theorem exec_kexp_three (s : State) : exec (.kexp 3) s = .next { s with err := .keylen } :=
  congrArg Host.Outcome.next (s.failed_eq (e := .keylen) (by decide))

/-- Settles O3: a clause for the unassigned numbers, one for each row of the opcode map, and the three operands that are out of
range. -/
theorem decodeFollowsOpcodeMap : Obligations.DecodeFollowsOpcodeMap := by
  refine ⟨fun c hlow hhigh => ?_, encodedAs_of_row .nop rfl rfl fun _ => rfl, encodedAs_of_row .kexp rfl rfl fun _ => rfl,
    encodedAs_of_row .enc rfl rfl fun _ => rfl, encodedAs_of_row .ark rfl rfl fun _ => rfl,
    encodedAs_of_row .rnd rfl rfl fun _ => rfl, encodedAs_of_row .rndl rfl rfl fun _ => rfl,
    encodedAs_of_row .kclr rfl rfl fun _ => rfl, encodedAs_of_row .pvkey rfl rfl fun _ => rfl,
    encodedAs_of_row .pvinit rfl rfl fun _ => rfl,
    encodedAs_of_row .pvupd rfl rfl fun c => congrArg (Instr.pvupd · _) (fieldCh_eq c),
    encodedAs_of_row .pvmul rfl rfl fun _ => rfl, encodedAs_of_row .pvfin rfl rfl fun _ => rfl,
    encodedAs_of_row .pvclr rfl rfl fun _ => rfl, fun s => ⟨exec_kexp_three s, fun r hk hr i hi => ?_, fun ch n hn => ?_⟩⟩
  · have hd := decode_unassigned (opcodeOf_eq_none hlow hhigh)
    exact ⟨hd, writes_illegal hd⟩
  · exact exec_round_of_nr_lt hk hr hi
  · exact exec_pvupd_of_lt ch hn s

/-- Settles O4: the decoder evaluated at each of the words. -/
theorem sampleWordsDecode : Obligations.SampleWordsDecode := by
  unfold Obligations.SampleWordsDecode
  decide

end Sys2Proof.Machine

namespace Sys2Proof.Machine

/-! ## Running a command (40_command_dispatch.md R59 to R64) -/

/-- A command that ends with an error has done no more than fail with that code: every success leaves `ERR` at `OK` (R61). -/
theorem Executed.eq_failed {s t : State} {i : Instr} (h : Executed s i t) (he : t.err ≠ .ok) : t = s.failed t.err := by
  cases h with
  | failed => rfl
  | _ => exact absurd rfl he

theorem State.failed_limit (s : State) : s.failed .limit = { s with err := .limit, fatal := true } := rfl

/-- Settles O18: a command with an error is a `failed` of its code, and an illegal word is a `failed` of `ERR_OPCODE`. -/
theorem failingCommandChangesOnlyErr : Obligations.FailingCommandChangesOnlyErr := by
  refine ⟨fun i s t h he => ?_, fun _ _ s hd => writes_illegal hd s⟩
  have ht : t = s.failed t.err := (executed_of_exec h).eq_failed he
  refine ⟨fun hne => ht.trans (s.failed_eq hne), fun hlimit => ?_⟩
  rw [hlimit] at ht
  exact ht.trans s.failed_limit

/-- The step at a waiting write of `CMD` executes the written word at the state with that event taken. -/
theorem step_command {s : State} {c : Word} {rest : List HostEvent} (h : s.pending = .write 32 s.par.base c :: rest) :
    step s = runWord c { s with pending := rest } := by
  have hs : ({ s with pending := rest } : State).withCommand c = s := by
    rw [State.withCommand, ← h]
  rw [← step_withCommand, hs]

/-- Settles O5: the step executes the word, which runs its command or, with none, fails with `ERR_OPCODE`. -/
theorem stepRunsDecodedCommand : Obligations.StepRunsDecodedCommand := by
  intro s c rest h
  refine ⟨fun i hd => ?_, fun e hd => ?_⟩
  · rw [step_command h, runWord_ok hd]
  · rw [step_command h, runWord_illegal hd, State.failed_eq _ (by decide)]

/-- `NOP` has no operand, so its opcode's number is its one word (R64). -/
theorem decode_eq_nop_iff {c : Word} : decode c = .ok .nop ↔ c = 0#32 := by
  constructor
  · intro h
    exact eq_opcodeNumber_of_decode h rfl
  · rintro rfl
    rfl

/-- Settles O21: a word with `OP` 0 is `NOP` or has a must-be-0 bit set, by its row of the opcode map. -/
theorem nopOnlyClearsErr : Obligations.NopOnlyClearsErr := by
  refine ⟨fun _ => rfl, fun _ => decode_eq_nop_iff, fun c s hop hc => ?_⟩
  obtain ⟨hlegal, hillegal⟩ := encodedAs_of_row .nop rfl rfl (fun _ => rfl) c hop
  obtain ⟨hd, hwrites⟩ := hillegal fun hbits => hc (decode_eq_nop_iff.1 (hlegal hbits))
  exact ⟨hd, hwrites s⟩

end Sys2Proof.Machine

namespace Sys2Proof.Machine

/-! ## The AES primitives (41_aes_primitives.md R66 to R72) -/

/-! ### Doubling and the product in GF(2^8) (R66) -/

/-- The top bit of a byte says that its value is at least 128. -/
theorem getLsbD_seven_eq (a : Byte) : a.getLsbD 7 = decide (128 ≤ a.toNat) :=
  (BitVec.msb_eq_getLsbD_last a).symm.trans (BitVec.msb_eq_decide a)

theorem toNat_xtime (a : Byte) :
    (xtime a).toNat = (2 * a.toNat ^^^ (if 128 ≤ a.toNat then 0x1B else 0)) % 256 := by
  have hshift : (a <<< 1).toNat = 2 * a.toNat % 2 ^ 8 := by
    rw [BitVec.toNat_shiftLeft, Nat.shiftLeft_eq, Nat.mul_comm]
  have hxor := @Nat.xor_mod_two_pow (2 * a.toNat) (if 128 ≤ a.toNat then 0x1B else 0) 8
  refine Eq.trans ?_ hxor.symm
  rw [xtime, BitVec.toNat_xor, hshift, getLsbD_seven_eq]
  by_cases h : 128 ≤ a.toNat <;> simp [h]

/-- What bit `i` of the second factor adds to the product: `xtime^i(a)` when it is set. -/
def gfTerm (a b : Byte) (i : Nat) : Byte := if b.getLsbD i then xtimePow i a else 0#8

/-- Each step of the product adds the term of its bit. -/
theorem gfMul8_eq_foldl_gfTerm (a b : Byte) :
    gfMul8 a b = (List.range 8).foldl (fun acc i => acc ^^^ gfTerm a b i) 0#8 := by
  refine List.foldl_ext _ _ _ fun acc i _ => ?_
  unfold gfTerm
  split
  · rfl
  · exact BitVec.xor_zero.symm

theorem gfMul8_eq_sum (a b : Byte) :
    gfMul8 a b = gfTerm a b 0 ^^^ gfTerm a b 1 ^^^ gfTerm a b 2 ^^^ gfTerm a b 3 ^^^ gfTerm a b 4 ^^^
      gfTerm a b 5 ^^^ gfTerm a b 6 ^^^ gfTerm a b 7 := by
  rw [gfMul8_eq_foldl_gfTerm, ← BitVec.zero_xor (x := gfTerm a b 0)]
  rfl

/-- Settles O22: the fold of the product is the sum of its eight terms. -/
theorem byteProductIsSumOfDoublings : Obligations.ByteProductIsSumOfDoublings :=
  ⟨toNat_xtime, gfMul8_eq_sum, by decide, by decide, by decide, by decide⟩

/-! ### The round transformations (R68 to R72) -/

theorem byteAt_subBytes (s : Block) {i : Nat} (hi : i < 16) : byteAt (subBytes s) i = sbox (byteAt s i) :=
  byteAt_blockOf _ hi

/-- The byte that `ShiftRows` moves to place `i` (R69, second form). -/
theorem byteAt_shiftRows (s : Block) {i : Nat} (hi : i < 16) :
    byteAt (shiftRows s) i = byteAt s ([0, 5, 10, 15, 4, 9, 14, 3, 8, 13, 2, 7, 12, 1, 6, 11].getD i 0) := by
  have hsource : ∀ i < 16, i % 4 + 4 * ((i / 4 + i % 4) % 4) =
      [0, 5, 10, 15, 4, 9, 14, 3, 8, 13, 2, 7, 12, 1, 6, 11].getD i 0 := by decide
  rw [← hsource i hi]
  exact byteAt_blockOf _ hi

/-- `ShiftRows` rotates row `r` left by `r` columns (R69, first form). -/
theorem byteAt_shiftRows_row (s : Block) {r c : Nat} (hr : r < 4) (hc : c < 4) :
    byteAt (shiftRows s) (r + 4 * c) = byteAt s (r + 4 * ((c + r) % 4)) := by
  have hrow : (r + 4 * c) % 4 = r := by omega
  have hcol : (r + 4 * c) / 4 = c := by omega
  rw [shiftRows, byteAt_blockOf _ (by omega), hrow, hcol]

/-- The bytes of a block made of four words are the bytes of the words, in order. -/
theorem byteAt_words (w : Nat → Word) {c j : Nat} (hc : c < 4) (hj : j < 4) :
    byteAt (w 0 ++ w 1 ++ w 2 ++ w 3) (4 * c + j) = wordByteAt (w c) j := by
  have hplace : 8 * (15 - (4 * c + j)) = 32 * (3 - c) + 8 * (3 - j) := by omega
  have hfit : 8 * (3 - j) + 8 ≤ 32 := by omega
  unfold byteAt wordByteAt
  rw [hplace]
  generalize 8 * (3 - j) = k at hfit ⊢
  interval_cases c
  · rw [show 32 * (3 - 0) + k = 32 + (32 + (32 + k)) by omega, extract_halves_high, extract_halves_high,
      extract_halves_high]
  · rw [show 32 * (3 - 1) + k = 32 + (32 + k) by omega, extract_halves_high, extract_halves_high,
      extract_halves_low _ _ hfit]
  · rw [show 32 * (3 - 2) + k = 32 + k by omega, extract_halves_high, extract_halves_low _ _ hfit]
  · rw [show 32 * (3 - 3) + k = k by omega, extract_halves_low _ _ hfit]

theorem byteAt_mixColumns (s : Block) {c j : Nat} (hc : c < 4) (hj : j < 4) :
    byteAt (mixColumns s) (4 * c + j) = wordByteAt (mixedColumn s c) j :=
  byteAt_words (mixedColumn s) hc hj

/-- Settles O24: each transformation is a block of named bytes, and `MixColumns` is four words of them. -/
theorem roundTransformationsByByte : Obligations.RoundTransformationsByByte := by
  refine fun s k => ⟨fun i hi => byteAt_subBytes s hi, fun r c hr hc => byteAt_shiftRows_row s hr hc,
    fun i hi => byteAt_shiftRows s hi, fun c hc => ?_, fun i _ => byteAt_xor s k i, rfl, rfl⟩
  obtain ⟨h0, h1, h2, h3⟩ := wordByteAt_beWord _ _ _ _
  exact ⟨(byteAt_mixColumns s hc (by decide : 0 < 4)).trans h0, (byteAt_mixColumns s hc (by decide : 1 < 4)).trans h1,
    (byteAt_mixColumns s hc (by decide : 2 < 4)).trans h2, (byteAt_mixColumns s hc (by decide : 3 < 4)).trans h3⟩

/-! ### The S-box (R67) -/

/-- The affine map of the S-box (R67). -/
def sboxAffine (b : Byte) : Byte :=
  b ^^^ b.rotateLeft 1 ^^^ b.rotateLeft 2 ^^^ b.rotateLeft 3 ^^^ b.rotateLeft 4 ^^^ 0x63#8

/-- The inverse of the affine map: its rotations are `x + x^3 + x^6`, the inverse of `1 + x + x^2 + x^3 + x^4` modulo
`x^8 + 1`. -/
def sboxAffineInv (a : Byte) : Byte := a.rotateLeft 1 ^^^ a.rotateLeft 3 ^^^ a.rotateLeft 6 ^^^ 0x05#8

theorem sboxAffine_sboxAffineInv : ∀ a : Byte, sboxAffine (sboxAffineInv a) = a := by decide +kernel

/-- The table, entry by entry: the affine map undone at `S(a)` is the inverse of `a` in GF(2^8). -/
theorem gfMul8_sboxAffineInv_sbox : ∀ a : Byte, a ≠ 0#8 → gfMul8 a (sboxAffineInv (sbox a)) = 0x01#8 := by
  decide +kernel

theorem sboxAffineInv_sbox_zero : sboxAffineInv (sbox 0#8) = 0#8 := by decide

/-- Settles O23: the inverse is the one that the table itself names, by undoing the affine map. -/
theorem sboxIsAffineOfInverse : Obligations.SboxIsAffineOfInverse := by
  refine ⟨fun a => ⟨sboxAffineInv (sbox a), ?_, (sboxAffine_sboxAffineInv (sbox a)).symm⟩, by decide, by decide⟩
  by_cases h : a = 0#8
  · exact .inl ⟨h, h ▸ sboxAffineInv_sbox_zero⟩
  · exact .inr (gfMul8_sboxAffineInv_sbox a h)

end Sys2Proof.Machine

namespace Sys2Proof.Machine

/-! ## The key expansion (42_aes_key_expansion.md R73 to R78) -/

/-! ### `Rcon` and the word maps (R74) -/

theorem rotWord_beWord (a0 a1 a2 a3 : Byte) : rotWord (beWord a0 a1 a2 a3) = beWord a1 a2 a3 a0 := by
  obtain ⟨h0, h1, h2, h3⟩ := wordByteAt_beWord a0 a1 a2 a3
  rw [rotWord, h0, h1, h2, h3]

theorem subWord_beWord (a0 a1 a2 a3 : Byte) :
    subWord (beWord a0 a1 a2 a3) = beWord (sbox a0) (sbox a1) (sbox a2) (sbox a3) := by
  obtain ⟨h0, h1, h2, h3⟩ := wordByteAt_beWord a0 a1 a2 a3
  rw [subWord, h0, h1, h2, h3]

/-- Settles O26: the ten constants evaluated, and the word maps on a word given by its bytes. -/
theorem scheduleConstantsAndWordMaps : Obligations.ScheduleConstantsAndWordMaps :=
  ⟨by decide, fun a0 a1 a2 a3 => ⟨rotWord_beWord a0 a1 a2 a3, subWord_beWord a0 a1 a2 a3⟩⟩

/-! ### The words of the expansion (R75) -/

/-- Byte `b` of word `i` of a key is byte `4i + b` of the key. -/
theorem wordByteAt_keyWordAt (key : KeyStr) (i : Nat) {b : Nat} (hb : b < 4) :
    wordByteAt (keyWordAt key i) b = keyByteAt key (4 * i + b) := by
  obtain ⟨h0, h1, h2, h3⟩ := wordByteAt_beWord (keyByteAt key (4 * i)) (keyByteAt key (4 * i + 1))
    (keyByteAt key (4 * i + 2)) (keyByteAt key (4 * i + 3))
  interval_cases b
  · exact h0
  · exact h1
  · exact h2
  · exact h3

/-- The word that `Rcon` adds, with its three zero bytes as one string (R74). -/
theorem beWord_zero_zero_zero (a : Byte) : beWord a 0#8 0#8 0#8 = a ++ 0#24 :=
  (BitVec.append_assoc (x₁ := a ++ 0#8) (x₂ := 0#8) (x₃ := 0#8)).trans (BitVec.append_assoc (x₁ := a))

/-- `ws` is the first `n` words `w[0..n−1]` of the expansion of `key`, oldest first: the words of the key, and after them the
recurrence (R75). -/
structure ExpandedTo (kl : KeyLen) (key : KeyStr) (n : Nat) (ws : List Word) : Prop where
  length : ws.length = n
  nk_le : kl.nk ≤ n
  keyWord : ∀ i, i < kl.nk → ws.getD i 0#32 = keyWordAt key i
  recurrence : ∀ i, kl.nk ≤ i → i < n →
    ws.getD i 0#32 = ws.getD (i - kl.nk) 0#32 ^^^ scheduleTerm kl i (ws.getD (i - 1) 0#32)

theorem KeyLen.nk_pos (kl : KeyLen) : 0 < kl.nk := by
  simp [KeyLen.nk]

/-- Before the loop, the words are those of the key. -/
theorem expandedTo_nk (kl : KeyLen) (key : KeyStr) : ExpandedTo kl key kl.nk ((List.range kl.nk).map (keyWordAt key)) where
  length := by simp
  nk_le := le_rfl
  keyWord i hi := by simp [hi]
  recurrence i hle hlt := absurd hlt (Nat.not_lt_of_le hle)

/-- One step of the loop adds the next word: it leaves the older ones in place, and the recurrence looks at those only. -/
theorem ExpandedTo.append {kl : KeyLen} {key : KeyStr} {n : Nat} {ws : List Word} (h : ExpandedTo kl key n ws) :
    ExpandedTo kl key (n + 1)
      (ws ++ [ws.getD (n - kl.nk) 0#32 ^^^ scheduleTerm kl n (ws.getD (n - 1) 0#32)]) where
  length := by simp [h.length]
  nk_le := h.nk_le.trans n.le_succ
  keyWord i hi := by
    rw [List.getD_append _ _ _ _ (h.length.symm ▸ hi.trans_le h.nk_le), h.keyWord i hi]
  recurrence i hle hlt := by
    have hpos := kl.nk_pos
    have old {j : Nat} (w : Word) (hj : j < n) : (ws ++ [w]).getD j 0#32 = ws.getD j 0#32 :=
      List.getD_append _ _ _ _ (h.length.symm ▸ hj)
    rw [old _ (show i - kl.nk < n by omega), old _ (show i - 1 < n by omega)]
    rcases Nat.lt_succ_iff_lt_or_eq.1 hlt with hi | rfl
    · rw [old _ hi, h.recurrence i hle hi]
    · rw [List.getD_append_right _ _ _ _ h.length.le, h.length, Nat.sub_self, List.getD_cons_zero]

/-- `m` steps of the loop add `m` words (the loop holds its words newest first). -/
theorem ExpandedTo.after_expandLoop {kl : KeyLen} {key : KeyStr} (m : Nat) {n : Nat} {ws : List Word}
    (h : ExpandedTo kl key n ws.reverse) : ExpandedTo kl key (n + m) (expandLoop kl m n ws).reverse := by
  induction m generalizing n ws with
  | zero => exact h
  | succ m ih =>
    have hlen : ws.length = n := by simpa using h.length
    have hpos := kl.nk_pos
    have back {j : Nat} (hj : 0 < j) (hjn : j ≤ n) : ws.reverse.getD (n - j) 0#32 = ws.getD (j - 1) 0#32 := by
      rw [List.getD_reverse _ (by omega), hlen]
      congr 1
      omega
    have hstep := h.append
    rw [back hpos h.nk_le, back one_pos (hpos.trans_le h.nk_le), ← List.reverse_cons] at hstep
    rw [← Nat.add_assoc, Nat.add_right_comm]
    exact ih hstep

theorem KeyLen.nk_le_words (kl : KeyLen) : kl.nk ≤ kl.words := by
  simp only [KeyLen.nk, KeyLen.words, KeyLen.nr]
  omega

/-- `KeyExpansion` returns `4·(Nr+1)` words, the key's and the recurrence's. -/
theorem expandedTo_keyExpansion (kl : KeyLen) (key : KeyStr) : ExpandedTo kl key kl.words (keyExpansion kl key) := by
  have h : ExpandedTo kl key kl.nk ((List.range kl.nk).map (keyWordAt key)).reverse.reverse := by
    rw [List.reverse_reverse]
    exact expandedTo_nk kl key
  have hloop := h.after_expandLoop (kl.words - kl.nk)
  rwa [Nat.add_sub_cancel' kl.nk_le_words] at hloop

/-! ### The round-key file after `KEXP` (R76, R77) -/

theorem rkWord_scheduleFile (kl : KeyLen) (key : KeyStr) {i : Nat} (hi : i < 60) :
    rkWord (scheduleFile kl key) i = (keyExpansion kl key).getD i 0#32 := by
  simp [rkWord, scheduleFile, hi]

theorem KeyLen.words_le (kl : KeyLen) : kl.words ≤ 60 := by
  cases kl <;> decide

/-- The words of the schedule that follow the recurrence (R75). -/
theorem rkWord_scheduleFile_recurrence (kl : KeyLen) (key : KeyStr) {i : Nat} (hle : kl.nk ≤ i) (hlt : i < kl.words) :
    rkWord (scheduleFile kl key) i = rkWord (scheduleFile kl key) (i - kl.nk) ^^^
      scheduleTerm kl i (rkWord (scheduleFile kl key) (i - 1)) := by
  have hwords := kl.words_le
  rw [rkWord_scheduleFile _ _ (by omega), rkWord_scheduleFile _ _ (by omega), rkWord_scheduleFile _ _ (by omega)]
  exact (expandedTo_keyExpansion kl key).recurrence i hle hlt

theorem keyLenOf_num (kl : KeyLen) : keyLenOf kl.num = some kl := by
  cases kl <;> rfl

theorem exec_kexp {n : Nat} {kl : KeyLen} (h : keyLenOf n = some kl) (s : State) :
    exec (.kexp n) s = .next { s with rk := scheduleFile kl s.key, ksv := true, klen := kl, err := .ok } := by
  rw [exec, execKexp, h]
  rfl

/-- Settles O27: the schedule that `KEXP` writes is the expansion, word by word. -/
theorem kexpWritesTheExpandedKey : Obligations.KexpWritesTheExpandedKey := by
  intro s n kl hmem
  obtain rfl : n = kl.num := by
    simp only [List.mem_cons, Prod.mk.injEq, List.not_mem_nil, or_false] at hmem
    rcases hmem with ⟨rfl, rfl⟩ | ⟨rfl, rfl⟩ | ⟨rfl, rfl⟩ <;> rfl
  have hexp := expandedTo_keyExpansion kl s.key
  have hnk := kl.nk_le_words
  have hwords := kl.words_le
  refine ⟨scheduleFile kl s.key, exec_kexp (keyLenOf_num kl) s, fun i b hi hb => ?_, fun i hle hlt => ?_, fun i hle hlt => ?_⟩
  · have hi60 : i < 60 := hi.trans_le (hnk.trans hwords)
    rw [rkWord_scheduleFile _ _ hi60, hexp.keyWord i hi, wordByteAt_keyWordAt _ _ hb]
  · rw [← beWord_zero_zero_zero]
    exact rkWord_scheduleFile_recurrence kl s.key hle hlt
  · rw [rkWord_scheduleFile _ _ hlt]
    exact List.getD_eq_default _ _ (hexp.length.trans_le hle)

/-- Settles O28: `KEXP` with the fourth length code, and its row of the opcode map. -/
theorem kexpRefusesInvalidLength : Obligations.KexpRefusesInvalidLength :=
  ⟨exec_kexp_three, encodedAs_of_row .kexp rfl rfl fun _ => rfl⟩

/-- Settles O31: a round key is a block of four words. -/
theorem roundKeyIsFourWords : Obligations.RoundKeyIsFourWords := by
  intro rk r i _ hi
  have h := byteAt_words (fun c => rkWord rk (4 * r + c)) (show i / 4 < 4 by omega) (show i % 4 < 4 by omega)
  rwa [Nat.div_add_mod] at h

end Sys2Proof.Machine

namespace Sys2Proof.Machine

/-! ## The two engines (R78; 45_polyval_engine.md R102) -/

section Engines

variable {s t : State} {i : Instr}

/-- Only `PVUPD` fails with `ERR_LIMIT`, so a failing AES command leaves `FATAL` alone too. -/
theorem Executed.keepsPolyval (h : Executed s i t) (hi : isAes i = true) : samePolyval s t := by
  cases h with
  | @failed _ e _ he =>
    have hlimit : e ≠ .limit := by
      intro hl
      obtain ⟨ch, n, rfl⟩ := he hl
      cases hi
    simp [samePolyval, hlimit]
  | kexp | cipher | kclr => simp [samePolyval]
  | _ => cases hi

theorem Executed.keepsAes (h : Executed s i t) (hi : isPolyval i = true) : sameAes s t := by
  cases h with
  | cipher hc => rcases hc with rfl | ⟨r, rfl | rfl | rfl⟩ <;> cases hi
  | kexp | kclr => cases hi
  | _ => simp [sameAes]

end Engines

/-- Settles O54: what `Executed` says of the other engine and of the outside. -/
theorem enginesAreIndependent : Obligations.EnginesAreIndependent := by
  intro i s t h
  have h := executed_of_exec h
  exact ⟨h.keepsPolyval, h.keepsAes, h.keepsOutside⟩

/-! ### After `KCLR` (R78) -/

/-- A predicate that each of the commands keeps is kept by all of them in a row. -/
theorem runCommands_keeps {P : State → Prop} {is : List Instr} {s t : State}
    (keeps : ∀ i ∈ is, ∀ s t, P s → Executed s i t → P t) (hs : P s) (h : runCommands is s = .next t) : P t := by
  induction is generalizing s with
  | nil =>
    cases h
    exact hs
  | cons i is ih =>
    obtain ⟨u, hu⟩ := exec_completes i s
    simp only [runCommands, hu] at h
    exact ih (fun j hj => keeps j (List.mem_cons_of_mem i hj)) (keeps i List.mem_cons_self s u hs (executed_of_exec hu)) h

/-- Without a schedule the four cipher commands stop at their first check (43_aes_cipher.md R80, R81). -/
theorem exec_cipher_of_no_schedule {s : State} (hk : s.ksv = false) {r : Nat} {i : Instr}
    (hi : i ∈ [Instr.enc, .ark r, .rnd r, .rndl r]) : exec i s = .next { s with err := .nokey } := by
  have hstop : ¬ s.ksv = true := by simp [hk]
  rw [← s.failed_eq (e := .nokey) (by decide)]
  simp only [List.mem_cons, List.not_mem_nil, or_false] at hi
  rcases hi with rfl | rfl | rfl | rfl <;> exact check_stop hstop _ _ _

/-- Settles O30: only `KEXP` sets `KSV`, so it stays clear and the cipher commands stop at their first check. -/
theorem kclrZeroizesAesEngine : Obligations.KclrZeroizesAesEngine := by
  refine ⟨fun _ => rfl, fun s t u is hclr hno hrun r i hi => ?_, encodedAs_of_row .kclr rfl rfl fun _ => rfl⟩
  have hstart : t.ksv = false := by
    rw [succeed_next hclr]
    rfl
  have hkeep : ∀ i ∈ is, ∀ s t : State, s.ksv = false → Executed s i t → t.ksv = false := by
    intro i hi s t hs h
    by_contra ht
    obtain ⟨kl, rfl⟩ := h.kexp_of_ksv hs (Bool.eq_true_of_not_eq_false ht)
    exact hno kl hi
  exact exec_cipher_of_no_schedule (runCommands_keeps (P := fun s => s.ksv = false) hkeep hstart hrun) hi

end Sys2Proof.Machine

namespace Sys2Proof.Machine

/-! ## The cipher and its commands (43_aes_cipher.md R79 to R84) -/

/-! ### The four commands with a schedule (R80 to R83) -/

section WithSchedule

variable {s : State} {r : Nat}

theorem exec_enc_of_schedule (hk : s.ksv = true) :
    exec .enc s = .next { s with st := cipher s.rk s.klen.nr s.st, err := .ok } :=
  check_pass hk _ _ _

theorem exec_ark_of_le_nr (hk : s.ksv = true) (hr : r ≤ s.klen.nr) :
    exec (.ark r) s = .next { s with st := addRoundKey s.st (roundKey s.rk r), err := .ok } :=
  roundCommand_pass _ hk hr

theorem exec_rnd_of_le_nr (hk : s.ksv = true) (hr : r ≤ s.klen.nr) :
    exec (.rnd r) s = .next { s with st := aesRound s.st (roundKey s.rk r), err := .ok } :=
  roundCommand_pass _ hk hr

theorem exec_rndl_of_le_nr (hk : s.ksv = true) (hr : r ≤ s.klen.nr) :
    exec (.rndl r) s = .next { s with st := finalRound s.st (roundKey s.rk r), err := .ok } :=
  roundCommand_pass _ hk hr

end WithSchedule

/-- Settles O33: the one check of `ENC`, and its row of the opcode map. -/
theorem encEncryptsTheStateBlock : Obligations.EncEncryptsTheStateBlock :=
  ⟨fun _ hk => exec_enc_of_schedule hk, fun _ hk => exec_cipher_of_no_schedule hk (r := 0) List.mem_cons_self,
    encodedAs_of_row .enc rfl rfl fun _ => rfl⟩

/-- A round key added twice cancels (R81: `s ⊕ k ⊕ k = s`). -/
@[simp] theorem addRoundKey_addRoundKey (s k : Block) : addRoundKey (addRoundKey s k) k = s := by
  simp [addRoundKey]

theorem exec_ark_twice {s : State} {r : Nat} (hk : s.ksv = true) (hr : r ≤ s.klen.nr) :
    ∃ t, exec (.ark r) s = .next t ∧ exec (.ark r) t = .next { s with err := .ok } := by
  refine ⟨_, exec_ark_of_le_nr hk hr, Eq.trans (exec_ark_of_le_nr hk hr) ?_⟩
  rw [addRoundKey_addRoundKey]

/-- Settles O34: the three commands share their two checks, so one lemma for each outcome of the checks serves them all. -/
theorem roundCommandsUseRoundKey : Obligations.RoundCommandsUseRoundKey :=
  ⟨fun _ _ hk hr => ⟨exec_ark_of_le_nr hk hr, exec_rnd_of_le_nr hk hr, exec_rndl_of_le_nr hk hr⟩,
    fun _ _ _ hi => ⟨fun hk => exec_cipher_of_no_schedule hk (List.mem_cons_of_mem _ hi),
      fun hk hr => exec_round_of_nr_lt hk hr hi⟩,
    fun _ _ hk hr => exec_ark_twice hk hr,
    encodedAs_of_row .ark rfl rfl fun _ => rfl, encodedAs_of_row .rnd rfl rfl fun _ => rfl,
    encodedAs_of_row .rndl rfl rfl fun _ => rfl⟩

/-! ### A full round on equal bytes (R82, corner cases) -/

/-- `03 • a = 02 • a ⊕ a`, checked at each byte. -/
theorem gfMul8_three : ∀ a : Byte, gfMul8 0x03#8 a = gfMul8 0x02#8 a ^^^ a := by decide +kernel

/-- The coefficients of a row of `MixColumns` sum to 1: `02 ⊕ 03 ⊕ 01 ⊕ 01 = 01`. -/
theorem mixColumn_same (a : Byte) : mixColumn a a a a = beWord a a a a := by
  simp [mixColumn, gfMul8_three, BitVec.xor_comm a]

section EqualBytes

variable {s : Block} {a : Byte} (h : ∀ i, i < 16 → byteAt s i = a)
include h

theorem mixColumns_of_equal_bytes : mixColumns s = s := by
  apply block_ext
  intro i hi
  obtain ⟨c, j, hc, hj, rfl⟩ : ∃ c j, c < 4 ∧ j < 4 ∧ i = 4 * c + j := ⟨i / 4, i % 4, by omega, by omega, by omega⟩
  have hcol : mixedColumn s c = beWord a a a a := by
    rw [mixedColumn, h _ (by omega), h _ (by omega), h _ (by omega), h _ (by omega), mixColumn_same]
  obtain ⟨h0, h1, h2, h3⟩ := wordByteAt_beWord a a a a
  rw [byteAt_mixColumns s hc hj, hcol, h _ hi]
  interval_cases j <;> assumption

theorem byteAt_shiftRows_subBytes_of_equal_bytes {i : Nat} (hi : i < 16) :
    byteAt (shiftRows (subBytes s)) i = sbox a := by
  rw [shiftRows, byteAt_blockOf _ hi, byteAt_subBytes _ (by omega), h _ (by omega)]

end EqualBytes

/-- Settles O25: the block that `MixColumns` is given has sixteen equal bytes too, and `MixColumns` keeps such a block. -/
theorem roundsAgreeOnEqualBytes : Obligations.RoundsAgreeOnEqualBytes := fun _ k h =>
  congrArg (addRoundKey · k)
    (mixColumns_of_equal_bytes fun _ hi => byteAt_shiftRows_subBytes_of_equal_bytes h hi)

/-! ### The rounds of the cipher (R79) -/

/-- The block after the initial key addition and the full rounds `1` to `r` (R79). -/
def blockAfterRound (rk : Vector Word 60) (s : Block) : Nat → Block
  | 0 => addRoundKey s (roundKey rk 0)
  | r + 1 => aesRound (blockAfterRound rk s r) (roundKey rk (r + 1))

theorem foldl_rounds (rk : Vector Word 60) (s : Block) (m : Nat) :
    (List.range m).foldl (fun b r => aesRound b (roundKey rk (r + 1))) (addRoundKey s (roundKey rk 0)) =
      blockAfterRound rk s m := by
  induction m with
  | zero => rfl
  | succ m ih =>
    rw [List.range_succ, List.foldl_append, ih]
    rfl

theorem cipher_eq_finalRound (rk : Vector Word 60) (nr : Nat) (s : Block) :
    cipher rk nr s = finalRound (blockAfterRound rk s (nr - 1)) (roundKey rk nr) := by
  rw [cipher, foldl_rounds]

/-- Settles O32: the chain of blocks is `blockAfterRound`. -/
theorem cipherIsItsRounds : Obligations.CipherIsItsRounds := by
  intro rk nr s _
  refine ⟨blockAfterRound rk s, rfl, fun r hr _ => ?_, cipher_eq_finalRound rk nr s⟩
  obtain ⟨m, rfl⟩ := Nat.exists_eq_add_of_le' hr
  rfl

/-! ### `ENC` and the round commands in a row (R84) -/

theorem runCommands_snoc {is : List Instr} {s t : State} (i : Instr) (h : runCommands is s = .next t) :
    runCommands (is ++ [i]) s = exec i t := by
  induction is generalizing s with
  | nil =>
    cases h
    obtain ⟨u, hu⟩ := exec_completes i t
    simp [runCommands, hu]
  | cons j js ih =>
    obtain ⟨u, hu⟩ := exec_completes j s
    simp only [runCommands, hu, List.cons_append] at h ⊢
    exact ih h

/-- `ARK 0` and the first `m` of the `RND` commands leave the block after round `m` in `ST`. -/
theorem runCommands_rounds {s : State} (hk : s.ksv = true) {m : Nat} (hm : m ≤ s.klen.nr) :
    runCommands (.ark 0 :: (List.range m).map (fun r => .rnd (r + 1))) s =
      .next { s with st := blockAfterRound s.rk s.st m, err := .ok } := by
  induction m with
  | zero => exact (runCommands_snoc (is := []) (.ark 0) rfl).trans (exec_ark_of_le_nr hk hm)
  | succ m ih =>
    rw [List.range_succ, List.map_append, ← List.cons_append]
    exact (runCommands_snoc (.rnd (m + 1)) (ih (by omega))).trans (exec_rnd_of_le_nr hk hm)

/-- Settles O35: after the `RND` commands `ST` is the block before the final round, which `RNDL Nr` makes. -/
theorem encEqualsItsRoundCommands : Obligations.EncEqualsItsRoundCommands := by
  intro s hk
  rw [exec_enc_of_schedule hk, cipher_eq_finalRound]
  exact (runCommands_snoc _ (runCommands_rounds hk (Nat.sub_le _ 1))).trans (exec_rndl_of_le_nr hk (Nat.le_refl _))

end Sys2Proof.Machine

namespace Sys2Proof.Machine

/-! ## GF(2^128) (44_polyval_field.md R85 to R92) -/

/-! ### Doubling and halving (R86, R87) -/

theorem getLsbD_mulX (b : Block) (i : Nat) :
    (mulX b).getLsbD i = (b.getLsbD (i + 1) ^^ (b.getLsbD 0 && polyR.getLsbD i)) := by
  rw [mulX, BitVec.getLsbD_xor, BitVec.getLsbD_ushiftRight, Nat.add_comm 1 i]
  cases b.getLsbD 0 <;> simp

/-- Without a coefficient of `x^127` doubling is a shift. -/
theorem mulX_eq_ushiftRight {b : Block} (hb : b.getLsbD 0 = false) : mulX b = b >>> 1 := by
  rw [mulX, hb, if_neg (by decide), BitVec.xor_zero]

@[simp] theorem divX_zero : divX 0#128 = 0#128 := by decide

theorem getLsbD_divX_zero (b : Block) : (divX b).getLsbD 0 = b.getLsbD 127 := by
  unfold divX
  cases b.getLsbD 127 <;> simp

theorem getLsbD_divX_succ (b : Block) {i : Nat} (hi : i < 127) :
    (divX b).getLsbD (i + 1) = (b.getLsbD i ^^ (b.getLsbD 127 && polyR.getLsbD i)) := by
  have hlt : i + 1 < 128 := by omega
  unfold divX
  cases b.getLsbD 127 <;> simp [hlt, BitVec.getLsbD_eq_getElem, (by omega : i < 128)]

theorem getLsbD_polyR_top : polyR.getLsbD 127 = true := by decide

theorem getLsbD_polyR : ∀ k < 128, polyR.getLsbD (127 - k) = decide (k ∈ [0, 1, 2, 7]) := by decide

/-- Settles O37: `getLsbD_mulX` at the coefficient of `x^k`; for `k = 0` the bit of `b` beside it is outside the block. -/
theorem mulXMultipliesByX : Obligations.MulXMultipliesByX := by
  intro b k hk
  rw [getLsbD_mulX, getLsbD_polyR k hk, Bool.and_comm (b.getLsbD 0)]
  rcases Nat.eq_zero_or_pos k with rfl | hpos
  · simp
  · rw [show 127 - k + 1 = 128 - k by omega, decide_eq_true hpos, Bool.true_and]

/-- What doubling adds for the bit shifted out of the low end, halving takes away again. -/
theorem divX_mulX (b : Block) : divX (mulX b) = b := by
  have htop : (mulX b).getLsbD 127 = b.getLsbD 0 := by
    rw [getLsbD_mulX, getLsbD_polyR_top, BitVec.getLsbD_of_ge _ _ (by decide), Bool.false_xor, Bool.and_true]
  apply BitVec.eq_of_getLsbD_eq
  intro i hi
  cases i with
  | zero => rw [getLsbD_divX_zero, htop]
  | succ i => rw [getLsbD_divX_succ _ (by omega), htop, getLsbD_mulX, Bool.xor_assoc, Bool.xor_self, Bool.xor_false]

theorem mulX_divX (b : Block) : mulX (divX b) = b := by
  apply BitVec.eq_of_getLsbD_eq
  intro i hi
  rw [getLsbD_mulX, getLsbD_divX_zero]
  rcases Nat.lt_or_ge i 127 with hlt | hge
  · rw [getLsbD_divX_succ _ hlt, Bool.xor_assoc, Bool.xor_self, Bool.xor_false]
  · obtain rfl : i = 127 := by omega
    simp [getLsbD_polyR_top]

/-- Settles O38: halving is the inverse of doubling on either side. -/
theorem halvingUndoesDoubling : Obligations.HalvingUndoesDoubling := fun b => ⟨divX_mulX b, mulX_divX b⟩

/-! ### The field product (R88) -/

section LinearMaps

variable {f : Block → Block} (hadd : ∀ u v, f (u ^^^ v) = f u ^^^ f v) (hmul : ∀ v, f (mulX v) = mulX (f v))

include hadd

theorem map_zero_of_additive : f 0#128 = 0#128 := by
  have h := hadd 0#128 0#128
  rwa [BitVec.xor_self, BitVec.xor_self] at h

include hmul

/-- The loop commutes with every additive map that commutes with doubling. -/
theorem map_gfmulLoop (a : Block) (k : Nat) : ∀ v z, f (gfmulLoop a k v z) = gfmulLoop a k (f v) (f z) := by
  induction k with
  | zero => intro v z; rfl
  | succ k ih => intro v z; rw [gfmulLoop_succ, gfmulLoop_succ, ih, hmul, apply_ite f, hadd]

/-- An additive map that commutes with doubling is linear over the whole field. -/
theorem map_gfmul (a b : Block) : f (gfmul a b) = gfmul a (f b) := by
  rw [gfmul, map_gfmulLoop hadd hmul, map_zero_of_additive hadd, gfmul]

end LinearMaps

theorem gfmulLoop_xor_left (a b : Block) (k : Nat) :
    ∀ v z z', gfmulLoop (a ^^^ b) k v (z ^^^ z') = gfmulLoop a k v z ^^^ gfmulLoop b k v z' := by
  induction k with
  | zero => intro v z z'; rfl
  | succ k ih =>
    intro v z z'
    rw [gfmulLoop_succ, gfmulLoop_succ, gfmulLoop_succ, ← ih, BitVec.getLsbD_xor]
    congr 1
    cases a.getLsbD k <;> cases b.getLsbD k
    · rfl
    · exact BitVec.xor_assoc z z' v
    · change z ^^^ z' ^^^ v = z ^^^ v ^^^ z'
      ac_rfl
    · change z ^^^ z' = z ^^^ v ^^^ (z' ^^^ v)
      rw [show z ^^^ v ^^^ (z' ^^^ v) = z ^^^ z' ^^^ (v ^^^ v) by ac_rfl, BitVec.xor_self, BitVec.xor_zero]

theorem gfmulLoop_xor_right (a : Block) (k : Nat) :
    ∀ v v' z z', gfmulLoop a k (v ^^^ v') (z ^^^ z') = gfmulLoop a k v z ^^^ gfmulLoop a k v' z' := by
  induction k with
  | zero => intro v v' z z'; rfl
  | succ k ih =>
    intro v v' z z'
    rw [gfmulLoop_succ, gfmulLoop_succ, gfmulLoop_succ, ← ih, mulX_xor]
    congr 1
    cases a.getLsbD k
    · rfl
    · change z ^^^ z' ^^^ (v ^^^ v') = z ^^^ v ^^^ (z' ^^^ v')
      ac_rfl

theorem gfmul_xor_left (a b c : Block) : gfmul (a ^^^ b) c = gfmul a c ^^^ gfmul b c :=
  gfmulLoop_xor_left a b 128 c 0#128 0#128

theorem gfmul_xor_right (a b c : Block) : gfmul a (b ^^^ c) = gfmul a b ^^^ gfmul a c :=
  gfmulLoop_xor_right a 128 b c 0#128 0#128

theorem gfmul_mulX_right (a b : Block) : gfmul a (mulX b) = mulX (gfmul a b) :=
  (map_gfmul mulX_xor (fun _ => rfl) a b).symm

@[simp] theorem gfmul_zero_left (b : Block) : gfmul 0#128 b = 0#128 :=
  gfmulLoop_of_zero _ _ (fun _ _ => BitVec.getLsbD_zero) _ _

@[simp] theorem gfmul_zero_right (a : Block) : gfmul a 0#128 = 0#128 :=
  map_zero_of_additive (gfmul_xor_right a)

/-- The unit has one coefficient, which the first turn of the loop takes. -/
@[simp] theorem gfmul_polyOne_left (b : Block) : gfmul polyOne b = b := by
  refine (gfmulLoop_succ polyOne b 0#128 127).trans ?_
  rw [if_pos (by decide), BitVec.zero_xor]
  refine gfmulLoop_of_zero _ _ (fun i hi => ?_) _ _
  rw [polyOne, BitVec.getLsbD_shiftLeft, decide_eq_true hi, Bool.not_true, Bool.and_false, Bool.false_and]

/-- Settles O39: the loop is additive in each of its arguments, and doubling is an additive map that it commutes with. -/
theorem productIsBilinear : Obligations.ProductIsBilinear := fun a b c =>
  ⟨gfmul_polyOne_left b, gfmul_zero_left b, gfmul_zero_right a, gfmul_xor_left a b c, gfmul_xor_right a b c,
    gfmul_mulX_right a b⟩

/-- Below `x^127` doubling moves a power of `x` one place down in the block. -/
theorem mulX_twoPow {k : Nat} (hk : k + 1 < 128) : mulX (BitVec.twoPow 128 (k + 1)) = BitVec.twoPow 128 k := by
  rw [mulX_eq_ushiftRight (by simp)]
  apply BitVec.eq_of_getLsbD_eq
  intro i hi
  rw [BitVec.getLsbD_ushiftRight, BitVec.getLsbD_twoPow, BitVec.getLsbD_twoPow, decide_eq_true hk,
    decide_eq_true (by omega : k < 128), Bool.true_and, Bool.true_and, decide_eq_decide]
  omega

/-- One turn of the loop at a power of `x` adds the one coefficient of `a` at its own place. -/
theorem getLsbD_add_coefficient (a z : Block) (k i : Nat) (hk : k < 128) :
    (if a.getLsbD k then z ^^^ BitVec.twoPow 128 k else z).getLsbD i =
      (z.getLsbD i ^^ (decide (i = k) && a.getLsbD i)) := by
  by_cases hik : i = k
  · subst hik
    cases a.getLsbD i <;> simp [hk]
  · cases a.getLsbD k <;> simp [BitVec.getLsbD_twoPow, hik, Ne.symm hik]

/-- From `x^(127 - k)` on, the loop adds the coefficients of `a` at their own places. -/
theorem getLsbD_gfmulLoop_twoPow (a : Block) {k : Nat} (hk : k < 128) : ∀ (z : Block) (i : Nat),
    (gfmulLoop a (k + 1) (BitVec.twoPow 128 k) z).getLsbD i = (z.getLsbD i ^^ (decide (i ≤ k) && a.getLsbD i)) := by
  induction k with
  | zero =>
    intro z i
    rw [gfmulLoop_succ, gfmulLoop_zero, getLsbD_add_coefficient _ _ _ _ hk, decide_eq_decide.2 Nat.le_zero]
  | succ k ih =>
    intro z i
    rw [gfmulLoop_succ, mulX_twoPow hk, ih (by omega), getLsbD_add_coefficient _ _ _ _ hk, Bool.xor_assoc]
    congr 1
    rcases Nat.lt_trichotomy i (k + 1) with hlt | rfl | hgt
    · simp [hlt.ne, hlt.le, Nat.le_of_lt_succ hlt]
    · simp
    · simp [hgt.ne', hgt.not_ge, (Nat.lt_of_succ_lt hgt).not_ge]

@[simp] theorem gfmul_polyOne_right (a : Block) : gfmul a polyOne = a := by
  apply BitVec.eq_of_getLsbD_eq
  intro i hi
  have h := getLsbD_gfmulLoop_twoPow a (by decide : 127 < 128) 0#128 i
  rwa [BitVec.getLsbD_zero, Bool.false_xor, decide_eq_true (by omega), Bool.true_and] at h

/-- Multiplying by `b` from the left is linear, so it is multiplying its value at the unit, which is `b`. -/
theorem gfmul_comm (a b : Block) : gfmul a b = gfmul b a := by
  have h := map_gfmul (gfmul_xor_right b) (gfmul_mulX_right b) a polyOne
  rw [gfmul_polyOne_right, gfmul_polyOne_right] at h
  exact h.symm

theorem gfmul_mulX_left (a b : Block) : gfmul (mulX a) b = mulX (gfmul a b) := by
  rw [gfmul_comm, gfmul_mulX_right, gfmul_comm]

/-- Multiplying by `c` from the right is linear. -/
theorem gfmul_assoc (a b c : Block) : gfmul (gfmul a b) c = gfmul a (gfmul b c) :=
  map_gfmul (f := (gfmul · c)) (fun u v => gfmul_xor_left u v c) (fun v => gfmul_mulX_left v c) a b

/-- Settles O40: multiplication on one side is a linear map, and a linear map passes through the product. -/
theorem productIsCommutativeAndAssociative : Obligations.ProductIsCommutativeAndAssociative := fun a b c =>
  ⟨gfmul_comm a b, gfmul_assoc a b c⟩

theorem gfmul_divX_left (a b : Block) : gfmul (divX a) b = divX (gfmul a b) := by
  rw [← divX_mulX (gfmul (divX a) b), ← gfmul_mulX_left, mulX_divX]

theorem gfmul_mulXPow_left (k : Nat) (a b : Block) : gfmul (mulXPow k a) b = mulXPow k (gfmul a b) := by
  induction k with
  | zero => rw [mulXPow, mulXPow]
  | succ k ih => rw [mulXPow, gfmul_mulX_left, ih, mulXPow]

/-! ### The table (R90, R91) -/

/-- The recurrence in one equation, which holds at 0 and 1 as well: the entry of `n / 2` halved, and `T[1]` for an odd `n`. -/
theorem tableEntry_succ (h : Block) (fuel n : Nat) :
    tableEntry h (fuel + 1) n =
      divX (tableEntry h fuel (n / 2)) ^^^ (if n % 2 = 1 then tableOne h else 0#128) := by
  have hzero : tableEntry h fuel 0 = 0#128 := by cases fuel <;> rfl
  rcases Nat.lt_or_ge n 2 with hlt | hge
  · interval_cases n
    · rw [tableEntry_zero, hzero, divX_zero, if_neg (by decide), BitVec.xor_zero]
    · rw [tableEntry_one, hzero, divX_zero, if_pos (by decide), BitVec.zero_xor]
  · rw [tableEntry, if_neg (by omega), if_neg (by omega)]
    rcases Nat.mod_two_eq_zero_or_one n with heven | hodd
    · rw [if_pos heven, if_neg (by omega), BitVec.xor_zero]
    · rw [if_neg (by omega), if_pos hodd]

/-- `fuel` halvings reach every entry below `2^fuel`; one more changes nothing. -/
theorem tableEntry_fuel (h : Block) {fuel n : Nat} (hn : n < 2 ^ fuel) :
    tableEntry h (fuel + 1) n = tableEntry h fuel n := by
  induction fuel generalizing n with
  | zero =>
    obtain rfl : n = 0 := by omega
    rfl
  | succ fuel ih => rw [tableEntry_succ, ih (by omega), ← tableEntry_succ]

/-- Settles O41: an even entry and the odd one after it halve the same earlier entry. -/
theorem tableFollowsRecurrence : Obligations.TableFollowsRecurrence := by
  intro h
  refine ⟨table_getElem h (by decide), table_getElem h (by decide), fun n hn _ heven => ?_⟩
  have hhalf : tableEntry h 8 (n / 2) = tableEntry h 7 (n / 2) := tableEntry_fuel h (by omega)
  have heq : (table h)[n] = divX (tableEntry h 7 (n / 2)) := by
    rw [table_getElem, tableEntry_succ, if_neg (by omega), BitVec.xor_zero]
  refine ⟨by rw [heq, table_getElem, hhalf], ?_⟩
  rw [heq, table_getElem, table_getElem, tableEntry_one, tableEntry_succ, if_pos (by omega), show (n + 1) / 2 = n / 2 by omega]

theorem beta_xor (u v : Byte) : beta (u ^^^ v) = beta u ^^^ beta v := by
  rw [beta, beta, beta, BitVec.xor_append, BitVec.xor_self]

/-- `β` satisfies the table's recurrence with `x^7` in the place of `T[1]`. -/
theorem beta_halving : ∀ v : Byte,
    beta v = divX (beta (v >>> 1)) ^^^ (if v.toNat % 2 = 1 then mulXPow 7 polyOne else 0#128) := by
  decide +kernel

theorem tableEntry_eq_gfmul_beta (h : Block) {fuel : Nat} {v : Byte} (hv : v.toNat < 2 ^ fuel) :
    tableEntry h fuel v.toNat = gfmul (beta v) h := by
  induction fuel generalizing v with
  | zero =>
    obtain rfl : v = 0#8 := by bv_omega
    exact (gfmul_zero_left h).symm
  | succ fuel ih =>
    have hshift : v.toNat / 2 = (v >>> 1).toNat := by simp [Nat.shiftRight_eq_div_pow]
    rw [tableEntry_succ, hshift, ih (by omega), beta_halving v, gfmul_xor_left, gfmul_divX_left, apply_ite (gfmul · h),
      gfmul_mulXPow_left, gfmul_polyOne_left, gfmul_zero_left, tableOne]

theorem table_getElem_eq_gfmul_beta (h : Block) (v : Byte) : (table h)[v.toNat]'v.isLt = gfmul (beta v) h :=
  (table_getElem h v.isLt).trans (tableEntry_eq_gfmul_beta h v.isLt)

/-- Settles O42: `β(0x80)` is the unit and `β(0x40)` is `x`; the entries add because `β` and the product do. -/
theorem tableEntryIsProduct : Obligations.TableEntryIsProduct := by
  intro h
  refine ⟨table_getElem_eq_gfmul_beta h, ?_, table_getElem h (by decide), ?_, fun u v => ?_⟩
  · calc (table h)[0x80] = gfmul polyOne h := table_getElem_eq_gfmul_beta h 0x80#8
      _ = h := gfmul_polyOne_left h
  · calc (table h)[0x40] = gfmul (mulX polyOne) h := table_getElem_eq_gfmul_beta h 0x40#8
      _ = mulX h := by rw [gfmul_mulX_left, gfmul_polyOne_left]
  · rw [table_getElem_eq_gfmul_beta, table_getElem_eq_gfmul_beta, table_getElem_eq_gfmul_beta, beta_xor, gfmul_xor_left]

/-! ### Multiplying through the table (R92) -/

/-- Doubling is a shift as long as no coefficient leaves the block. -/
theorem mulXPow_eq_ushiftRight {v : Block} {k : Nat} (hv : ∀ i < k, v.getLsbD i = false) : mulXPow k v = v >>> k := by
  induction k with
  | zero => rfl
  | succ k ih =>
    have hlow : (v >>> k).getLsbD 0 = false := by rw [BitVec.getLsbD_ushiftRight]; exact hv k (by omega)
    rw [mulXPow, ih fun i hi => hv i (by omega), mulX_eq_ushiftRight hlow, BitVec.shiftRight_add]

/-- `β(a[i])` is what byte `i` of `a` is once it stands in front: the eight highest coefficients. -/
theorem getLsbD_beta_byteAt (a : Block) {i j : Nat} (hi : i ≤ 15) (hj : j < 128) :
    (beta (byteAt a i)).getLsbD j = (decide (120 ≤ j) && (a <<< (8 * i)).getLsbD j) := by
  rw [beta, BitVec.getLsbD_append, getLsbD_byteAt _ (by omega)]
  split
  · rw [decide_eq_false (by omega), Bool.false_and, BitVec.getLsbD_zero]
  · rw [decide_eq_true (by omega), BitVec.getLsbD_shiftLeft, decide_eq_true hj, decide_eq_false (by omega),
      show 8 * (15 - i) + (j - 120) = j - 8 * i by omega]
    rfl

/-- One step of Horner's rule: the bytes from `i + 1` on make room for byte `i`. -/
theorem horner_step (a : Block) {i : Nat} (hi : i ≤ 15) :
    mulXPow 8 (a <<< (8 * (i + 1))) ^^^ beta (byteAt a i) = a <<< (8 * i) := by
  rw [Nat.mul_succ, BitVec.shiftLeft_add, mulXPow_eq_ushiftRight fun j hj => by simp [hj]]
  apply BitVec.eq_of_getLsbD_eq
  intro j hj
  rw [BitVec.getLsbD_xor, BitVec.getLsbD_ushiftRight, BitVec.getLsbD_shiftLeft _ 8, Nat.add_sub_cancel_left,
    decide_eq_false (by omega : ¬ 8 + j < 8), Bool.not_false, Bool.and_true, getLsbD_beta_byteAt _ hi hj]
  rcases Nat.lt_or_ge j 120 with hlt | hge
  · rw [decide_eq_true (by omega : 8 + j < 128), decide_eq_false hlt.not_ge, Bool.true_and, Bool.false_and, Bool.xor_false]
  · rw [decide_eq_false (by omega : ¬ 8 + j < 128), decide_eq_true hge, Bool.false_and, Bool.true_and, Bool.false_xor]

/-- Horner's rule for `Σ_i x^(8i)·β(a[i])`, begun at byte `n`. -/
theorem foldl_horner (a : Block) {n : Nat} (hn : n ≤ 15) :
    (List.range n).reverse.foldl (fun z i => mulXPow 8 z ^^^ beta (byteAt a i)) (a <<< (8 * n)) = a := by
  induction n with
  | zero => exact BitVec.shiftLeft_zero a
  | succ n ih =>
    rw [List.range_succ, List.reverse_append, List.reverse_singleton, List.singleton_append, List.foldl_cons,
      horner_step a (by omega), ih (by omega)]

theorem beta_byteAt_last (a : Block) : beta (byteAt a 15) = a <<< (8 * 15) := by
  have h := horner_step a (Nat.le_refl 15)
  rwa [BitVec.shiftLeft_eq_zero (by decide), mulXPow_eq_ushiftRight fun _ _ => BitVec.getLsbD_zero, BitVec.zero_ushiftRight,
    BitVec.zero_xor] at h

/-- Settles O43: each step through the table is the product of a step of Horner's rule. -/
theorem tableMultiplicationIsProduct : Obligations.TableMultiplicationIsProduct := by
  intro h a
  simp only [table_getElem_eq_gfmul_beta]
  rw [List.foldl_hom (gfmul · h) (g₁ := fun z i => mulXPow 8 z ^^^ beta (byteAt a i))
    (H := fun z i => by rw [gfmul_xor_left, gfmul_mulXPow_left]), beta_byteAt_last, foldl_horner a (by decide)]

/-! ### The lengths block (R94) -/

theorem toNat_byte_bitLength {tot : BitVec 64} (h : tot.toNat < 2 ^ 61) (j : Nat) :
    ((bitLength tot).extractLsb' (8 * j) 8).toNat = 8 * tot.toNat / 256 ^ j % 256 := by
  rw [BitVec.extractLsb'_toNat, bitLength, BitVec.toNat_ofNat, Nat.mod_eq_of_lt (by omega : 8 * tot.toNat < 2 ^ 64),
    Nat.shiftRight_eq_div_pow, Nat.pow_mul]

theorem byteAt_lengthsBlock_msg (a m : BitVec 64) {i : Nat} (hi : i < 8) :
    byteAt (lengthsBlock a m) i = (bitLength m).extractLsb' (8 * (7 - i)) 8 := by
  rw [byteAt, show 8 * (15 - i) = 64 + 8 * (7 - i) by omega]
  exact extract_halves_high _ _ _

theorem byteAt_lengthsBlock_ad (a m : BitVec 64) {i : Nat} (hi : i < 8) :
    byteAt (lengthsBlock a m) (8 + i) = (bitLength a).extractLsb' (8 * (7 - i)) 8 := by
  rw [byteAt, show 15 - (8 + i) = 7 - i by omega]
  exact extract_halves_low _ _ (by omega)

/-- Settles O44: in POLYVAL order byte `i` is byte `15 - i`, which lies in the other half. -/
theorem lengthsBlockHoldsBothBitLengths : Obligations.LengthsBlockHoldsBothBitLengths := by
  intro a m ha hm i hi
  refine ⟨?_, ?_, ?_, ?_⟩
  · rw [byteAt_lengthsBlock_msg a m hi, toNat_byte_bitLength hm]
  · rw [byteAt_lengthsBlock_ad a m hi, toNat_byte_bitLength ha]
  · rw [byteAt_rev _ (by omega), show 15 - i = 8 + (7 - i) by omega, byteAt_lengthsBlock_ad a m (by omega),
      toNat_byte_bitLength ha, show 7 - (7 - i) = i by omega]
  · rw [byteAt_rev _ (by omega), show 15 - (8 + i) = 7 - i by omega, byteAt_lengthsBlock_msg a m (by omega),
      toNat_byte_bitLength hm, show 7 - (7 - i) = i by omega]

end Sys2Proof.Machine

namespace Sys2Proof.Machine

/-! ## The hash key, a new hash and a single step (45_polyval_engine.md R97, R98, R100) -/

@[simp] theorem rev_zero : rev 0#128 = 0#128 := by
  apply block_ext
  intro i hi
  rw [byteAt_rev _ hi, byteAt_zero, byteAt_zero]

@[simp] theorem hashKey_zero : hashKey 0#128 = 0#128 := by
  rw [hashKey, rev_zero, mulX_zero]

/-- The table of the zero key is zero: each entry is a product with the key (44_polyval_field.md R91). -/
theorem table_zero_getElem (v : Fin 256) : (table 0#128)[v] = 0#128 := by
  have h := table_getElem_eq_gfmul_beta 0#128 (BitVec.ofFin v)
  rwa [gfmul_zero_right] at h

@[simp] theorem polyStep_zero_key (g blk : Block) : polyStep 0#128 g blk = 0#128 := gfmul_zero_right _

/-- Settles O45: `PVKEY` makes no check, and a zero key is the zero of the field product. -/
theorem pvkeyDerivesHashKeyAndTable : Obligations.PvkeyDerivesHashKeyAndTable := by
  refine ⟨fun _ => rfl, fun s hk => ?_, encodedAs_of_row .pvkey rfl rfl fun _ => rfl⟩
  have hkey : hashKey s.hk = 0#128 := by rw [hk, hashKey_zero]
  refine ⟨{ s with h := 0#128, t := table 0#128, tbv := true, err := .ok }, ?_, rfl, table_zero_getElem, polyStep_zero_key⟩
  rw [exec, execPvkey, hkey]
  rfl

/-- Settles O46: `PVINIT` makes no check. -/
theorem pvinitStartsNewHash : Obligations.PvinitStartsNewHash :=
  ⟨fun _ => rfl, encodedAs_of_row .pvinit rfl rfl fun _ => rfl⟩

/-- Without a table `PVUPD`, `PVMUL` and `PVFIN` stop at the check for one (60_exceptions.md R107). -/
theorem exec_hashing_of_no_table {s : State} (ht : s.tbv = false) {ch : Channel} {n : Nat} (hn : n ≤ 16) {i : Instr}
    (hi : i ∈ [Instr.pvupd ch n, .pvmul, .pvfin]) : exec i s = .next { s with err := .notable } := by
  have hstop : ¬ s.tbv = true := by simp [ht]
  rw [← s.failed_eq (e := .notable) (by decide)]
  simp only [List.mem_cons, List.not_mem_nil, or_false] at hi
  rcases hi with rfl | rfl | rfl
  · exact (check_pass hn _ _ _).trans (check_stop hstop _ _ _)
  · exact check_stop hstop _ _ _
  · exact check_stop hstop _ _ _

/-- Settles O47: the one check of `PVMUL`, which does not read the phase. -/
theorem pvmulStepsAccumulator : Obligations.PvmulStepsAccumulator :=
  ⟨fun _ ht => check_pass ht _ _ _,
    fun _ ht => exec_hashing_of_no_table ht (ch := .ad) (Nat.zero_le 16) (by simp),
    encodedAs_of_row .pvmul rfl rfl fun _ => rfl⟩

/-- Settles O52: only `PVKEY` sets `TBV`, so it stays clear and the hashing commands stop at the check for a table. -/
theorem pvclrZeroizesPolyvalEngine : Obligations.PvclrZeroizesPolyvalEngine := by
  refine ⟨fun _ => rfl, fun s t u is hclr hno hrun ch n hn i hi => ?_, encodedAs_of_row .pvclr rfl rfl fun _ => rfl⟩
  have hstart : t.tbv = false := by
    rw [succeed_next hclr]
    rfl
  have hkeep : ∀ i ∈ is, ∀ s t : State, s.tbv = false → Executed s i t → t.tbv = false := by
    intro i hi s t hs h
    by_contra ht
    exact hno (h.pvkey_of_tbv hs (Bool.eq_true_of_not_eq_false ht) ▸ hi)
  exact exec_hashing_of_no_table (runCommands_keeps (P := fun s => s.tbv = false) hkeep hstart hrun) hn hi

end Sys2Proof.Machine

namespace Sys2Proof.Machine

/-! ## Completing the hash (45_polyval_engine.md R96, R101) -/

/-- `Flush(ch)` in one form for both its cases: `G` takes a step only if bytes are cached, and none is left cached. -/
theorem State.flush_eq (s : State) (ch : Channel) :
    s.flush ch =
      { s with g := if (s.chan ch).nact = 0#4 then s.g else gfmul (s.g ^^^ rev (s.chan ch).pb) s.h }.setChan ch
        { s.chan ch with pb := if (s.chan ch).nact = 0#4 then (s.chan ch).pb else 0#128, nact := 0#4 } := by
  rcases s.flush_cases ch with ⟨hn, h⟩ | ⟨hn, h⟩ <;> rw [h]
  · simp only [if_pos hn]
    rw [← hn]
    cases ch <;> rfl
  · simp only [if_neg hn]
    rfl

/-- `PVFIN` makes two flushes, associated data first, and the step of the lengths block. -/
theorem State.finishHash_eq (s : State) :
    s.finishHash =
      let g1 := if s.ad.nact = 0#4 then s.g else gfmul (s.g ^^^ rev s.ad.pb) s.h
      let g2 := if s.msg.nact = 0#4 then g1 else gfmul (g1 ^^^ rev s.msg.pb) s.h
      { s with
        g := gfmul (g2 ^^^ lengthsBlock s.ad.tot s.msg.tot) s.h
        ad := { s.ad with pb := if s.ad.nact = 0#4 then s.ad.pb else 0#128, nact := 0#4 }
        msg := { s.msg with pb := if s.msg.nact = 0#4 then s.msg.pb else 0#128, nact := 0#4 }
        phase := .final } := by
  simp only [State.finishHash, State.flush_eq, State.setChan, State.chan]
  rfl

/-- `PVFIN` with its three checks held. -/
theorem exec_pvfin_pass {s : State} (ht : s.tbv = true) (hf : s.fatal = false) (hp : s.phase ≠ .final) :
    exec .pvfin s = .next s.finishHash.done :=
  (check_pass ht _ _ _).trans ((check_pass hf _ _ _).trans (check_pass hp _ _ _))

/-- A second `PVFIN` stops at the last check (60_exceptions.md R107). -/
theorem exec_pvfin_of_final {s : State} (ht : s.tbv = true) (hf : s.fatal = false) (hp : s.phase = .final) :
    exec .pvfin s = .next { s with err := .order } := by
  rw [← s.failed_eq (e := .order) (by decide)]
  exact (check_pass ht _ _ _).trans ((check_pass hf _ _ _).trans (check_stop (not_not.2 hp) _ _ _))

/-- With no data the lengths block is zero, and so is the hash (R101, corner cases). -/
theorem State.finishHash_g_of_empty {s : State} (hg : s.g = 0#128) (ha : s.ad = emptyHasher) (hm : s.msg = emptyHasher) :
    s.finishHash.g = 0#128 := by
  have hlengths : lengthsBlock 0#64 0#64 = 0#128 := by decide
  simp [State.finishHash_eq, hg, ha, hm, emptyHasher, hlengths]

/-- Settles O51: `PVFIN` with its checks held is two flushes and the step of the lengths block; each check that does not hold
stops it. -/
theorem pvfinCompletesTheHash : Obligations.PvfinCompletesTheHash := by
  refine ⟨fun s ht hf hp => ?_, fun s ht => ?_, fun s ht => ?_, fun s ht hf => exec_pvfin_of_fatal hf ht,
    fun s ht hf hp => exec_pvfin_of_final ht hf hp, encodedAs_of_row .pvfin rfl rfl fun _ => rfl⟩
  · rw [exec_pvfin_pass ht hf hp, State.finishHash_eq]
    simp only [State.done, lengthsBlock, bitLength]
  · refine ⟨s.emptyHash.done, _, rfl, exec_pvfin_pass ht rfl nofun, ?_, rfl, rfl⟩
    rw [State.done_g]
    exact State.finishHash_g_of_empty rfl rfl rfl
  · exact exec_hashing_of_no_table ht (ch := .ad) (Nat.zero_le 16) (by simp)

end Sys2Proof.Machine

namespace Sys2Proof.Machine

/-! ## Absorbing bytes (45_polyval_engine.md R96, R99) -/

/-! ### The caches -/

@[simp] theorem State.setChan_setChan (s : State) (ch : Channel) (c c' : Hasher) :
    (s.setChan ch c).setChan ch c' = s.setChan ch c' := by
  cases ch <;> rfl

/-- The accumulator and the channels are updated independently. -/
theorem State.setChan_with_g (s : State) (ch : Channel) (c : Hasher) (g : Block) :
    ({ s.setChan ch c with g := g } : State) = { s with g := g }.setChan ch c := by
  cases ch <;> rfl

/-- A cache of the first `a` bytes of `pb`, then the first `m` bytes of `f`, then zeros. -/
def cacheWith (pb : Block) (a m : Nat) (f : Nat → Byte) : Block :=
  blockOf fun i => if i < a then byteAt pb i else if i < a + m then f (i - a) else 0#8

theorem cacheWith_zero {c : Hasher} (h : c.padded) (f : Nat → Byte) : cacheWith c.pb c.nact.toNat 0 f = c.pb := by
  apply block_ext
  intro i hi
  rw [cacheWith, byteAt_blockOf _ hi, Nat.add_zero]
  split
  · rfl
  · next hi' =>
    exact (h i (Nat.le_of_not_lt hi') hi).symm

theorem cacheWith_start (pb : Block) (m : Nat) (f : Nat → Byte) :
    cacheWith pb 0 m f = blockOf fun i => if i < m then f i else 0#8 := by
  simp [cacheWith]

theorem cacheWith_to_end (pb : Block) {a m : Nat} (h : a + m = 16) (f : Nat → Byte) :
    cacheWith pb a m f = blockOf fun i => if i < a then byteAt pb i else f (i - a) := by
  apply block_ext
  intro i hi
  rw [cacheWith, byteAt_blockOf _ hi, byteAt_blockOf _ hi, h, if_pos hi]

theorem setByteAt_cacheWith (pb : Block) (a m : Nat) (f : Nat → Byte) :
    setByteAt (cacheWith pb a m f) (a + m) (f m) = cacheWith pb a (m + 1) f := by
  apply block_ext
  intro i hi
  rw [byteAt_setByteAt _ _ _ hi, cacheWith, byteAt_blockOf _ hi, cacheWith, byteAt_blockOf _ hi]
  split
  · next h =>
    subst h
    simp
  · next h =>
    have hiff : i < a + (m + 1) ↔ i < a + m := by omega
    simp only [hiff]

/-- `Absorb` into a channel that has just been written (R96). -/
theorem State.absorb_setChan (s : State) (ch : Channel) (c : Hasher) (b : Byte) :
    (s.setChan ch c).absorb ch b =
      if c.nact.toNat + 1 = 16 then
        { s with g := polyStep s.h s.g (setByteAt c.pb c.nact.toNat b) }.setChan ch { c with pb := 0#128, nact := 0#4 }
      else s.setChan ch { c with pb := setByteAt c.pb c.nact.toNat b, nact := c.nact + 1#4 } := by
  cases ch <;> rfl

/-- The count field holds every count below sixteen (10_state.md R24). -/
theorem toNat_ofNat_nact {k : Nat} (hk : k < 16) : (BitVec.ofNat 4 k).toNat = k := by
  simpa using hk

/-- Bytes that do not fill the cache are cached. -/
theorem State.absorbAll_of_lt {s : State} {ch : Channel} (hpad : (s.chan ch).padded) (f : Nat → Byte) {m : Nat}
    (hm : (s.chan ch).nact.toNat + m < 16) :
    s.absorbAll ch ((List.range m).map f) =
      s.setChan ch
        { pb := cacheWith (s.chan ch).pb (s.chan ch).nact.toNat m f
          nact := BitVec.ofNat 4 ((s.chan ch).nact.toNat + m)
          tot := (s.chan ch).tot } := by
  induction m with
  | zero =>
    rw [cacheWith_zero hpad, Nat.add_zero, BitVec.ofNat_toNat, BitVec.setWidth_eq]
    cases ch <;> rfl
  | succ m ih =>
    rw [List.range_succ, List.map_append, State.absorbAll_append, ih (by omega), List.map_singleton, State.absorbAll_cons,
      State.absorbAll_nil, State.absorb_setChan, toNat_ofNat_nact (by omega), if_neg (by omega), setByteAt_cacheWith,
      ← Nat.add_assoc, BitVec.ofNat_add ((s.chan ch).nact.toNat + m) 1]

/-- Bytes that fill the cache are one step, and leave it empty. -/
theorem State.absorbAll_of_eq {s : State} {ch : Channel} (hpad : (s.chan ch).padded) (f : Nat → Byte) {m : Nat}
    (hm : (s.chan ch).nact.toNat + m = 16) :
    s.absorbAll ch ((List.range m).map f) =
      { s with g := polyStep s.h s.g (cacheWith (s.chan ch).pb (s.chan ch).nact.toNat m f) }.setChan ch
        { s.chan ch with pb := 0#128, nact := 0#4 } := by
  have hlt := (s.chan ch).nact.isLt
  obtain ⟨k, rfl⟩ : ∃ k, m = k + 1 := ⟨m - 1, by omega⟩
  rw [List.range_succ, List.map_append, State.absorbAll_append, State.absorbAll_of_lt hpad f (by omega), List.map_singleton,
    State.absorbAll_cons, State.absorbAll_nil, State.absorb_setChan, toNat_ofNat_nact (by omega), if_pos (by omega),
    setByteAt_cacheWith]

/-- Bytes that reach past the end of the cache fill it, which is one step, and the rest start the next. -/
theorem State.absorbAll_past_end {s : State} {ch : Channel} (hpad : (s.chan ch).padded) (f : Nat → Byte) {m k : Nat}
    (hm : (s.chan ch).nact.toNat + m = 16) (hk : k < 16) :
    s.absorbAll ch ((List.range (m + k)).map f) =
      { s with g := polyStep s.h s.g (cacheWith (s.chan ch).pb (s.chan ch).nact.toNat m f) }.setChan ch
        { pb := cacheWith 0#128 0 k fun i => f (m + i), nact := BitVec.ofNat 4 k, tot := (s.chan ch).tot } := by
  rw [List.range_add, List.map_append, List.map_map, State.absorbAll_append, State.absorbAll_of_eq hpad f hm,
    State.absorbAll_of_lt (by rw [State.chan_setChan_same]; exact cleared_padded _) _
      (by rw [State.chan_setChan_same]; simpa using hk)]
  simp [Function.comp_def]

/-! ### `PVUPD` on a channel that is open -/

theorem State.openChannel_of_open {s : State} {ch : Channel} (hp : s.phase = openPhase ch) : s.openChannel ch = s := by
  rcases s.openChannel_cases ch with ⟨rfl, had, -⟩ | ⟨-, h⟩
  · cases hp.symm.trans had
  · exact h

/-- `PVUPD` with its checks held, on a channel that is open. -/
theorem exec_pvupd_of_open {s : State} {ch : Channel} {n : Nat} (hn : n ≤ 16) (ht : s.tbv = true) (hf : s.fatal = false)
    (hp : s.phase = openPhase ch) (hl : (s.chan ch).tot.toNat + n ≤ s.par.limitBytes) :
    exec (.pvupd ch n) s = .next ((s.absorbAll ch (bytesUpTo n s.x)).addTotal ch n).done := by
  have hpass : exec (.pvupd ch n) s = .next (((s.openChannel ch).absorbAll ch (bytesUpTo n s.x)).addTotal ch n).done :=
    execPvupd_pass hn ht hf (by cases ch <;> simp [hp, openPhase]) (by cases ch <;> simp [hp, openPhase]) hl
  rwa [State.openChannel_of_open hp] at hpass

/-- A channel written and then counted is written with its new total. -/
theorem State.addTotal_setChan (s : State) (ch : Channel) (c : Hasher) (n : Nat) :
    (s.setChan ch c).addTotal ch n = s.setChan ch { c with tot := c.tot + BitVec.ofNat 64 n } := by
  rw [State.addTotal, State.chan_setChan_same, State.setChan_setChan]

/-- Settles O48: with the checks held, `PVUPD` absorbs the bytes, which fill the cache or do not. -/
theorem pvupdAbsorbsBytesInOrder : Obligations.PvupdAbsorbsBytesInOrder := by
  intro s ch n hn ht hf hp hl hpad a tot
  have hopen : s.phase = openPhase ch := by rw [hp]; cases ch <;> rfl
  rw [exec_pvupd_of_open hn ht hf hopen hl, bytesUpTo]
  refine ⟨fun hlt => ?_, fun hle => ?_⟩
  · rw [State.absorbAll_of_lt hpad _ hlt, State.addTotal_setChan]
    rfl
  · have ha : a < 16 := (s.chan ch).nact.isLt
    obtain ⟨k, rfl⟩ : ∃ k, n = 16 - a + k := Nat.exists_eq_add_of_le (by omega)
    have hk : a + (16 - a + k) - 16 = k := by omega
    have hrest : (blockOf fun i => if i < k then byteAt s.x (16 - a + i) else 0#8) =
        blockOf fun i => if i < k then byteAt s.x (i + 16 - a) else 0#8 := by
      simp only [show ∀ i, 16 - a + i = i + 16 - a by omega]
    rw [State.absorbAll_past_end hpad _ (by omega) (by omega), State.addTotal_setChan, cacheWith_to_end (a := a) _ (by omega),
      cacheWith_start, hk, hrest, ← State.setChan_with_g]
    rfl

/-! ### The first message data (R99) -/

/-- `PVUPD` is `PVUPD` from the state in which its channel is open. -/
theorem exec_pvupd_openChannel {s : State} {ch : Channel} {n : Nat} (hn : n ≤ 16) (ht : s.tbv = true) (hf : s.fatal = false)
    (hp : s.phase ≠ .final) (ho : ¬(ch = .ad ∧ s.phase = .msg)) (hl : (s.chan ch).tot.toNat + n ≤ s.par.limitBytes) :
    exec (.pvupd ch n) s = exec (.pvupd ch n) (s.openChannel ch) := by
  rw [exec_pvupd_of_open hn (by simpa using ht) (by simpa using hf) (State.openChannel_phase hp ho)
    (by simpa [State.openChannel_tot] using hl), State.openChannel_x]
  exact execPvupd_pass hn ht hf hp ho hl

/-- Settles O49: opening the message channel is a flush of the associated data and the new phase. -/
theorem firstMessageDataFlushesAssociatedData : Obligations.FirstMessageDataFlushesAssociatedData := by
  intro s n hn ht hf hp hl
  have hfinal : s.phase ≠ .final := by simp [hp]
  have hopen := exec_pvupd_openChannel hn ht hf hfinal (ch := .msg) (by simp) hl
  have hflush : s.openChannel .msg = { s.flush .ad with phase := .msg } := if_pos ⟨rfl, hp⟩
  refine ⟨fun hzero => ?_, fun hpend => ?_, _, execPvupd_pass hn ht hf hfinal (by simp) hl, rfl, ?_, ?_, ?_⟩
  · rw [hopen, hflush, State.flush, State.chan_ad, if_pos hzero]
  · rw [hopen, hflush, State.flush, State.chan_ad, if_neg hpend]
    rfl
  · simp [hflush]
  · rw [State.done_ad, ← State.chan_ad, State.addTotal_chan_other _ _ (by decide), State.absorbAll_chan_other (by decide),
      hflush]
    exact s.flush_nact .ad
  · rw [State.done_msg, ← State.chan_msg, State.addTotal_chan_same, State.absorbAll_tot, State.openChannel_tot]
    rfl

/-! ### Absorbing in two parts (R99, corner cases) -/

/-- Byte `i` of a block moved up by `n` bytes. -/
theorem byteAt_shiftLeft (b : Block) {n i : Nat} (h : n + i < 16) : byteAt (b <<< (8 * n)) i = byteAt b (n + i) := by
  apply BitVec.eq_of_getLsbD_eq
  intro j hj
  have hlt : 8 * (15 - i) + j < 128 := by omega
  have hle : ¬ 8 * (15 - i) + j < 8 * n := by omega
  have hidx : 8 * (15 - i) + j - 8 * n = 8 * (15 - (n + i)) + j := by omega
  simp [getLsbD_byteAt _ hj, hlt, hle, hidx, -BitVec.getLsbD_eq_getElem]

/-- The first `n + m` bytes are the first `n`, then the first `m` of the block moved up by `n` bytes. -/
theorem bytesUpTo_add (b : Block) {n m : Nat} (h : n + m ≤ 16) :
    bytesUpTo (n + m) b = bytesUpTo n b ++ bytesUpTo m (b <<< (8 * n)) := by
  rw [bytesUpTo, List.range_add, List.map_append, List.map_map, bytesUpTo, bytesUpTo]
  congr 1
  refine List.map_congr_left fun i hi => ?_
  exact (byteAt_shiftLeft b (by have := List.mem_range.1 hi; omega)).symm

/-- Absorbing does not read the total of the channel. -/
theorem State.absorbAll_addTotal (s : State) (ch : Channel) (n : Nat) (bs : List Byte) :
    (s.addTotal ch n).absorbAll ch bs = (s.absorbAll ch bs).addTotal ch n := by
  refine List.foldl_hom (State.addTotal · ch n) fun s b => ?_
  rw [State.addTotal, State.absorb_setChan]
  rcases s.absorb_cases ch b with ⟨hn, h⟩ | ⟨hn, h⟩ <;> rw [h, State.addTotal_setChan]
  · exact if_pos hn
  · exact if_neg hn

/-- The state after the host has written all of `X` (20_memory.md R42). -/
def State.withX (s : State) (x : Block) : State := { s with x := x }

theorem State.chan_done_withX (s : State) (x : Block) (ch : Channel) : (s.done.withX x).chan ch = s.chan ch := by
  cases ch <;> rfl

/-- Absorbing reads neither `X` nor `ERR`. -/
theorem State.absorbAll_done_withX (s : State) (x : Block) (ch : Channel) (bs : List Byte) :
    (s.done.withX x).absorbAll ch bs = (s.absorbAll ch bs).done.withX x := by
  refine List.foldl_hom (fun s : State => s.done.withX x) fun s b => ?_
  rcases s.absorb_cases ch b with ⟨hn, h⟩ | ⟨hn, h⟩ <;> rw [h]
  · cases ch <;> exact (if_pos hn).trans (by simp only [State.withX, State.done, State.chan, State.setChan])
  · cases ch <;> exact if_neg hn

theorem State.addTotal_done_withX (s : State) (x : Block) (ch : Channel) (n : Nat) :
    (s.done.withX x).addTotal ch n = (s.addTotal ch n).done.withX x := by
  cases ch <;> rfl

/-- `PVUPD` after a command that succeeded and a host write of `X`. -/
theorem exec_pvupd_of_open_withX {s : State} {ch : Channel} {n : Nat} (x : Block) (hn : n ≤ 16) (ht : s.tbv = true)
    (hf : s.fatal = false) (hp : s.phase = openPhase ch) (hl : (s.chan ch).tot.toNat + n ≤ s.par.limitBytes) :
    exec (.pvupd ch n) (s.done.withX x) = .next (((s.absorbAll ch (bytesUpTo n x)).addTotal ch n).done.withX x) := by
  rw [← s.chan_done_withX x] at hl
  refine (exec_pvupd_of_open (s := s.done.withX x) hn ht hf hp hl).trans ?_
  rw [State.absorbAll_done_withX, State.addTotal_done_withX]
  rfl

theorem State.addTotal_add (s : State) (ch : Channel) (n m : Nat) :
    (s.addTotal ch n).addTotal ch m = s.addTotal ch (n + m) := by
  refine (State.addTotal_setChan ..).trans ?_
  rw [BitVec.add_assoc, ← BitVec.ofNat_add]
  rfl

/-- A total is at most what it was and what was added, whether or not the sum wraps. -/
theorem State.addTotal_tot_le (s : State) (ch : Channel) (n : Nat) :
    ((s.addTotal ch n).chan ch).tot.toNat ≤ (s.chan ch).tot.toNat + n := by
  rw [State.addTotal_chan_same, BitVec.toNat_add, BitVec.toNat_ofNat, Nat.add_mod_mod]
  exact Nat.mod_le _ _

/-- Settles O50: the second `PVUPD` finds its channel open, and absorbs after the first as in one row. -/
theorem splitUpdatesAbsorbTheSame : Obligations.SplitUpdatesAbsorbTheSame := by
  intro s t ch n m hnm h hok
  rcases execPvupd_cases h with ⟨-, ht, hf, hp, ho, hl, rfl⟩ | ⟨e, he, rfl⟩
  · refine ⟨_, execPvupd_pass (by omega) ht hf hp ho (by omega), rfl, ?_⟩
    have hopen : (((s.openChannel ch).absorbAll ch (bytesUpTo n s.x)).addTotal ch n).phase = openPhase ch := by
      simpa using State.openChannel_phase hp ho
    have htot := ((s.openChannel ch).absorbAll ch (bytesUpTo n s.x)).addTotal_tot_le ch n
    rw [State.absorbAll_tot, State.openChannel_tot] at htot
    refine (exec_pvupd_of_open_withX (s.x <<< (8 * n)) (by omega) (by simpa using ht) (by simpa using hf) hopen
      (by simp; omega)).trans ?_
    rw [State.absorbAll_addTotal, State.addTotal_add, ← State.absorbAll_append, ← bytesUpTo_add _ hnm]
    rfl
  · exact absurd hok he

end Sys2Proof.Machine

namespace Sys2Proof.Machine

/-! ## The order of the checks (60_exceptions.md R103, R107) -/

/-- The command completes with the error code `e`. -/
def EndsWith (r : Result) (e : ErrCode) : Prop := ∃ t, r = .next t ∧ t.err = e

theorem succeed_endsWith (s : State) : EndsWith (succeed s) .ok := ⟨_, rfl, rfl⟩

/-- `check` ends a command with its own code exactly where its condition does not hold, here said as `stop`. -/
theorem check_endsWith {c stop : Prop} [Decidable c] [Decidable stop] (hstop : stop ↔ ¬c) {e e' : ErrCode} {s : State}
    {go : Result} (hgo : EndsWith go e') : EndsWith (check c e s go) (if stop then e else e') := by
  by_cases hc : c
  · rwa [check_pass hc, if_neg fun h => hstop.1 h hc]
  · rw [check_stop hc, if_pos (hstop.2 hc)]
    exact ⟨_, rfl, rfl⟩

/-- A check of a flag that must be set. -/
theorem check_set_endsWith {b : Bool} {e e' : ErrCode} {s : State} {go : Result} (hgo : EndsWith go e') :
    EndsWith (check (b = true) e s go) (if b = false then e else e') :=
  check_endsWith (Bool.not_eq_true b).symm.to_iff hgo

theorem roundCommand_endsWith (r : Nat) (s : State) (b : Block) :
    EndsWith (roundCommand r s b)
      (if s.ksv = false then .nokey else if 10 + 2 * s.klen.num < r then .round else .ok) :=
  check_set_endsWith <| check_endsWith Nat.not_le.symm <| succeed_endsWith _

theorem exec_round_endsWith {r : Nat} {i : Instr} (s : State) (hi : i ∈ [Instr.ark r, .rnd r, .rndl r]) :
    EndsWith (exec i s) (if s.ksv = false then .nokey else if 10 + 2 * s.klen.num < r then .round else .ok) := by
  simp only [List.mem_cons, List.not_mem_nil, or_false] at hi
  rcases hi with rfl | rfl | rfl <;> exact roundCommand_endsWith r s _

theorem exec_kexp_endsWith {kl : Nat} (hkl : kl < 4) (s : State) :
    EndsWith (exec (.kexp kl) s) (if kl = 3 then .keylen else .ok) := by
  interval_cases kl
  · exact ⟨_, exec_kexp (kl := .k128) rfl s, rfl⟩
  · exact ⟨_, exec_kexp (kl := .k192) rfl s, rfl⟩
  · exact ⟨_, exec_kexp (kl := .k256) rfl s, rfl⟩
  · exact ⟨_, exec_kexp_three s, rfl⟩

/-- The commands without a check (R107). -/
theorem exec_unchecked_endsWith {i : Instr} (s : State) (hi : i ∈ [Instr.nop, .kclr, .pvkey, .pvinit, .pvclr]) :
    EndsWith (exec i s) .ok := by
  simp only [List.mem_cons, List.not_mem_nil, or_false] at hi
  rcases hi with rfl | rfl | rfl | rfl | rfl <;> exact succeed_endsWith _

theorem exec_pvupd_endsWith (ch : Channel) (n : Nat) (s : State) :
    EndsWith (exec (.pvupd ch n) s)
      (if 16 < n then .len else if s.tbv = false then .notable else if s.fatal = true then .fatal
        else if s.phase = .final then .order else if ch = .ad ∧ s.phase = .msg then .order
        else if s.par.limitBytes < (s.chan ch).tot.toNat + n then .limit else .ok) :=
  check_endsWith Nat.not_le.symm <| check_set_endsWith <| check_endsWith (Bool.not_eq_false s.fatal).symm.to_iff <|
    check_endsWith not_not.symm <| check_endsWith not_not.symm <| check_endsWith Nat.not_le.symm <| succeed_endsWith _

theorem exec_pvfin_endsWith (s : State) :
    EndsWith (exec .pvfin s)
      (if s.tbv = false then .notable else if s.fatal = true then .fatal
        else if s.phase = .final then .order else .ok) :=
  check_set_endsWith <| check_endsWith (Bool.not_eq_false s.fatal).symm.to_iff <| check_endsWith not_not.symm <|
    succeed_endsWith _

/-- Settles O19: the checks of each command stand in the order of R107, and each adds its own code in front of what the later
ones give. -/
theorem errorPriorityFollowsCheckOrder : Obligations.ErrorPriorityFollowsCheckOrder := fun s =>
  ⟨fun _ _ hd => writes_illegal hd s, fun _ _ _ => writes_command, fun _ => exec_unchecked_endsWith s,
    fun _ hkl => exec_kexp_endsWith hkl s, check_set_endsWith (succeed_endsWith _), fun _ _ => exec_round_endsWith s,
    fun ch n => exec_pvupd_endsWith ch n s, check_set_endsWith (succeed_endsWith _), exec_pvfin_endsWith s⟩

end Sys2Proof.Machine

namespace Sys2Proof.Machine

/-! ## A host of legal accesses (20_memory.md R39; 60_exceptions.md R103) -/

/-- A legal access reaches a register. -/
theorem exists_target {p : Params} {addr : Nat} (hbase : p.base ≤ addr) (hmap : mappedOffset (addr - p.base)) :
    ∃ r, target p 32 addr = .ok r := by
  obtain ⟨r, hr⟩ := exists_regAt_of_mappedOffset hmap
  refine ⟨r, ?_⟩
  rw [← Nat.add_sub_of_le hbase, target_window p (lt_of_regAt hr), hr]

theorem perform_completes {e : HostEvent} {s : State} (h : e.legal s.par) : ∃ t, perform e s = .next t := by
  cases e with
  | rst => exact ⟨_, rfl⟩
  | read bits addr =>
    obtain ⟨rfl, hbase, hmap⟩ := h
    obtain ⟨r, hr⟩ := exists_target hbase hmap
    exact ⟨readReg r s, by rw [perform, hr]⟩
  | write bits addr v =>
    obtain ⟨rfl, hbase, hmap⟩ := h
    obtain ⟨r, hr⟩ := exists_target hbase hmap
    obtain ⟨t, ht⟩ := writeReg_completes r v s
    exact ⟨t, by rw [perform, hr, ← ht]⟩

/-- Every event that waits is legal. -/
def State.LegalHost (s : State) : Prop := ∀ e ∈ s.pending, e.legal s.par

theorem State.LegalHost.step_completes {s : State} (h : s.LegalHost) : ∃ t, step s = .next t := by
  cases hp : s.pending with
  | nil => exact ⟨s, step_nil hp⟩
  | cons e rest =>
    rw [step_cons hp]
    exact perform_completes (h e (hp ▸ List.mem_cons_self))

/-- A step takes an event away and keeps the parameters, which say what is legal. -/
theorem State.LegalHost.of_step {s t : State} (h : s.LegalHost) (hstep : step s = .next t) : t.LegalHost := by
  obtain ⟨hpar, hpend, -, -⟩ := stepTakesOneEvent s t hstep
  intro e he
  rw [hpar]
  exact h e (List.mem_of_mem_tail (hpend ▸ he))

theorem run_succ_of_step {s t : State} (h : step s = .next t) (k : Nat) : core.run (k + 1) s = core.run k t := by
  have hcore : core.step s = .next t := h
  simp only [Host.Core.run, hcore]

theorem State.LegalHost.run_completes (k : Nat) : ∀ {s : State}, s.LegalHost → ∃ t, core.run k s = .next t := by
  induction k with
  | zero => exact fun _ => ⟨_, rfl⟩
  | succ k ih =>
    intro s h
    obtain ⟨t, ht⟩ := h.step_completes
    rw [run_succ_of_step ht]
    exact ih (h.of_step ht)

/-- Settles O10: a step of a legal host completes and leaves a legal host, the idle step after the last event included. -/
theorem legalHostNeverStops : Obligations.LegalHostNeverStops := fun k _ h => State.LegalHost.run_completes k h

end Sys2Proof.Machine

namespace Sys2Proof.Machine

/-! ## What a read cannot show (60_exceptions.md R115) and the numbers of the codes (R104) -/

/-- The machine with other values of the elements that no register shows. -/
def State.withSecrets (s : State) (key : KeyStr) (hk h pb0 pb1 : Block) (rk : Vector Word 60) : State :=
  { s with key := key, hk := hk, h := h, rk := rk, ad := { s.ad with pb := pb0 }, msg := { s.msg with pb := pb1 } }

@[simp] theorem regRead_withSecrets (s : State) (key : KeyStr) (hk h pb0 pb1 : Block) (rk : Vector Word 60) (r : Reg) :
    regRead (s.withSecrets key hk h pb0 pb1 rk) r = regRead s r := by
  cases r with
  | totLo ch | totHi ch => cases ch <;> rfl
  | _ => rfl

/-- A read that completes is the read of a register. -/
theorem regAt_of_reads {s : State} {off : Nat} {v : Word} (h : s.reads off v) : ∃ r, regAt off = some r := by
  unfold State.reads at h
  rw [step_cons rfl] at h
  cases performed_of_perform h with
  | read hr =>
    obtain ⟨-, off', hoff, hmap⟩ := target_ok hr
    exact ⟨_, Nat.add_left_cancel hoff ▸ hmap⟩

/-- Settles O12: a read that completes is of a register, and no register shows a secret. -/
theorem secretsCannotBeReadBack : Obligations.SecretsCannotBeReadBack := by
  intro s key hk h pb0 pb1 rk off v hread
  obtain ⟨r, hr⟩ := regAt_of_reads hread
  rw [reads_iff s (lt_of_regAt hr) hr] at hread
  exact (reads_iff (s.withSecrets key hk h pb0 pb1 rk) (lt_of_regAt hr) hr v).2 ((regRead_withSecrets ..).trans hread)

theorem ErrCode.code_le (e : ErrCode) : e.code.toNat ≤ 9 := by
  cases e <;> decide

/-- Settles O14: the numbers by definition, and the field of `STATUS` holds one of them. -/
theorem errorCodesAreZeroToNine : Obligations.ErrorCodesAreZeroToNine := by
  refine ⟨rfl, rfl, rfl, rfl, rfl, rfl, rfl, rfl, rfl, rfl, fun s => ?_⟩
  obtain ⟨herr, -⟩ := statusWord_fields s
  rw [herr]
  exact s.err.code_le

end Sys2Proof.Machine

namespace Sys2Proof.Machine

/-! ## Reset and zeroizing (70_reset_and_hazards.md R121, R122) -/

/-- Settles O16: the step performs the waiting reset, and a reset keeps what is the host's. -/
theorem resetInputRestoresResetValues : Obligations.ResetInputRestoresResetValues := fun s rest h =>
  ⟨({ s with pending := rest } : State).afterReset, step_cons h, State.afterReset_atReset _, rfl, rfl, rfl⟩

/-- Settles O17: neither command makes a check, and between them they clear every element, so that the second leaves the very
state of a reset. -/
theorem zeroizingBothEnginesIsReset : Obligations.ZeroizingBothEnginesIsReset := fun s =>
  ⟨_, s.afterReset, rfl, rfl, s.afterReset_atReset, rfl, rfl, rfl⟩

end Sys2Proof.Machine

namespace Sys2Proof.Machine

/-! ## A raw key written after its expansion (70_reset_and_hazards.md R127, R128) -/

/-! ### Answers in a state with one element replaced

`f` replaces an element that neither the checks nor the effects of a command read. -/

section Replaced

variable (f : State → State) {s t : State}

theorem succeed_next_replaced {u u' : State} (hdone : u'.done = f u.done) (h : succeed u = .next t) :
    succeed u' = .next (f t) := by
  rw [succeed_next h, ← hdone]
  rfl

theorem check_next_replaced {c : Prop} [Decidable c] {e : ErrCode} {go go' : Result}
    (hfailed : (f s).failed e = f (s.failed e)) (hgo : go = .next t → go' = .next (f t))
    (h : check c e s go = .next t) : check c e (f s) go' = .next (f t) := by
  rcases check_next h with ⟨hc, h⟩ | ⟨hc, rfl⟩
  · exact (check_pass hc _ _ _).trans (hgo h)
  · rw [check_stop hc, hfailed]

end Replaced

/-! ### `KEY` and the cipher commands (R127; 10_state.md R14) -/

/-- The state after the host has written all of `KEY` (20_memory.md R42). -/
def State.withKey (s : State) (k : KeyStr) : State := { s with key := k }

theorem roundCommand_withKey {r : Nat} {s t : State} {b : Block} (k : KeyStr) (h : roundCommand r s b = .next t) :
    roundCommand r (s.withKey k) b = .next (t.withKey k) :=
  check_next_replaced (State.withKey · k) rfl
    (check_next_replaced (State.withKey · k) rfl (succeed_next_replaced (State.withKey · k) rfl)) h

/-- Settles O36: the cipher commands take their round keys from `RK` and their length from `KLEN`. -/
theorem cipherCommandsIgnoreKeyRegister : Obligations.CipherCommandsIgnoreKeyRegister := by
  intro s t k r i hi h
  simp only [List.mem_cons, List.not_mem_nil, or_false] at hi
  rcases hi with rfl | rfl | rfl | rfl
  · exact check_next_replaced (State.withKey · k) rfl (succeed_next_replaced (State.withKey · k) rfl) h
  · exact roundCommand_withKey k h
  · exact roundCommand_withKey k h
  · exact roundCommand_withKey k h

/-! ### `HK` and the hashing commands (R128; 10_state.md R19) -/

/-- The state after the host has written all of `HK` (20_memory.md R42). -/
def State.withHk (s : State) (hk : Block) : State := { s with hk := hk }

section WithHk

variable (s : State) (hk : Block) (ch : Channel)

@[simp] theorem State.chan_withHk : (s.withHk hk).chan ch = s.chan ch := by
  cases ch <;> rfl

theorem State.setChan_withHk (c : Hasher) : (s.withHk hk).setChan ch c = (s.setChan ch c).withHk hk := by
  cases ch <;> rfl

theorem State.flush_withHk : (s.withHk hk).flush ch = (s.flush ch).withHk hk := by
  unfold State.flush
  rw [State.chan_withHk]
  split
  · rfl
  · rw [← State.setChan_withHk]
    simp only [State.withHk]

theorem State.absorb_withHk (b : Byte) : (s.withHk hk).absorb ch b = (s.absorb ch b).withHk hk := by
  unfold State.absorb
  simp only [State.chan_withHk]
  split
  · rw [← State.setChan_withHk]
    simp only [State.withHk]
  · rw [← State.setChan_withHk]

theorem State.absorbAll_withHk (bs : List Byte) : (s.withHk hk).absorbAll ch bs = (s.absorbAll ch bs).withHk hk :=
  List.foldl_hom (State.withHk · hk) fun s b => s.absorb_withHk hk ch b

theorem State.addTotal_withHk (n : Nat) : (s.withHk hk).addTotal ch n = (s.addTotal ch n).withHk hk :=
  State.setChan_withHk ..

theorem State.openChannel_withHk : (s.withHk hk).openChannel ch = (s.openChannel ch).withHk hk := by
  rcases s.openChannel_cases ch with ⟨hc, hp, h⟩ | ⟨hn, h⟩ <;> rw [h]
  · refine (if_pos ⟨hc, hp⟩).trans ?_
    rw [State.flush_withHk]
    rfl
  · exact if_neg hn

theorem State.finishHash_withHk : (s.withHk hk).finishHash = s.finishHash.withHk hk := by
  unfold State.finishHash
  rw [State.flush_withHk, State.flush_withHk]
  simp only [State.withHk]

end WithHk

/-- What `PVUPD` does once its checks hold (45_polyval_engine.md R99). -/
theorem State.update_withHk (s : State) (hk : Block) (ch : Channel) (n : Nat) (bs : List Byte) :
    (((s.withHk hk).openChannel ch).absorbAll ch bs).addTotal ch n =
      (((s.openChannel ch).absorbAll ch bs).addTotal ch n).withHk hk := by
  rw [State.openChannel_withHk, State.absorbAll_withHk, State.addTotal_withHk]

/-- Settles O53: no check reads `HK`, and every effect is computed from `H` and `X`. -/
theorem hashingIgnoresHashKeyRegister : Obligations.HashingIgnoresHashKeyRegister := by
  intro s t hk ch n i hi h
  have guarded {c : Prop} [Decidable c] {e : ErrCode} {go go' : Result} :
      (go = .next t → go' = .next (t.withHk hk)) → check c e s go = .next t →
        check c e (s.withHk hk) go' = .next (t.withHk hk) :=
    check_next_replaced (State.withHk · hk) rfl
  have succeeded {u u' : State} : u'.done = u.done.withHk hk → succeed u = .next t → succeed u' = .next (t.withHk hk) :=
    succeed_next_replaced (State.withHk · hk)
  simp only [List.mem_cons, List.not_mem_nil, or_false] at hi
  rcases hi with rfl | rfl | rfl | rfl
  · refine guarded (guarded (guarded (guarded (guarded (guarded (succeeded ?_)))))) h
    exact congrArg State.done (s.update_withHk hk ch n _)
  · refine guarded (succeeded ?_) h
    simp only [State.done, State.withHk]
  · exact guarded (guarded (guarded (succeeded (congrArg State.done (s.finishHash_withHk hk))))) h
  · exact succeeded rfl h

end Sys2Proof.Machine
